-- ==== Sys2Proof/Word.lean ====
section
/-! DEFINITION. The word types: the 32-bit host word (20_memory R50) and the operand register number (10_state R21). -/

namespace Sys2Proof

/-- A word of the register space, and a command word: 32 bits (20_memory R50, 30_encoding R70). -/
abbrev Word := BitVec 32

/-- The number of an operand register, `x0` to `x7` (10_state R21): numbers 8 to 15 of a field are no register. -/
abbrev RegId := Fin 8

end Sys2Proof
end

