-- ==== Sys2Proof/Syntax.lean ====
section
/-! DEFINITION. The six commands of the MAU, one constructor per row of the opcode map (30_encoding R73), and the reasons a word is no command. -/

namespace Sys2Proof

/-- A command. The fields are named as in 30_encoding R71, destinations first, the modulus last (R80). -/
inductive Instr where
  /-- `modred xd, xa, xm` (40 R90). -/
  | modred (rd ra rm : RegId)
  /-- `modmul xd, xa, xb, xm` (40 R93). -/
  | modmul (rd ra rb rm : RegId)
  /-- `modexp xd, xa, xe, xm`, and `modexp.chk` where `chk` is set (41 R101, R103). -/
  | modexp (rd ra rb rm : RegId) (chk : Bool)
  /-- `xgcd xg, xs, xt, xa, xb` (42 R111). -/
  | xgcd (rd rx ry ra rb : RegId)
  /-- `modinv xd, xa, xm` (43 R121). -/
  | modinv (rd ra rm : RegId)
  /-- `lincon xz, xn, xp, xa, xb, xm` (43 R125). -/
  | lincon (rd rx ry ra rb rm : RegId)
  deriving DecidableEq, Repr

/-- Why a word is illegal (30_encoding R77). All of them end in the one error E_ILLCMD. -/
inductive Illegal where
  /-- `RES` is not 0. -/
  | reservedBits
  /-- `OP` is 0 or 7 to 15. -/
  | opcode
  /-- `CHK` is 1 on a command other than `modexp`. -/
  | chkBit
  /-- A field the command does not use is not 0. -/
  | unusedField
  /-- A field the command uses is 8 to 15. -/
  | registerNumber
  /-- Two of the destinations `RD`, `RX`, `RY` of `xgcd` or `lincon` are equal (R78). -/
  | sameDestination
  deriving DecidableEq, Repr

end Sys2Proof
end

