-- ==== Sys2Proof/WellFormed.lean ====
section
/-! DEFINITION. Which terms of Instr are commands of the spec: the one condition the types do not carry is R78's. -/

namespace Sys2Proof

/-- `RD`, `RX`, `RY` pairwise different (30_encoding R74 "further condition", R78). -/
def distinctDests (rd rx ry : RegId) : Bool :=
  rd != rx && rd != ry && rx != ry

/-- The command is legal as a term: three results never share a register (30_encoding R78). -/
def Instr.wellFormed : Instr → Bool
  | .modred _ _ _ => true
  | .modmul _ _ _ _ => true
  | .modexp _ _ _ _ _ => true
  | .xgcd rd rx ry _ _ => distinctDests rd rx ry
  | .modinv _ _ _ => true
  | .lincon rd rx ry _ _ _ => distinctDests rd rx ry

end Sys2Proof
end

