-- ==== Sys2Proof/Decode.lean ====
section
/-! DEFINITION. The command word: fields (30_encoding R70, R71), the decoder (R76), the mask table (R74), and the encoder (R70, R80). -/

namespace Sys2Proof

/-- `v[hi:lo] = (v div 2^lo) mod 2^(hi-lo+1)` (00_scope R11). -/
def slice (v hi lo : Nat) : Nat :=
  v / 2 ^ lo % 2 ^ (hi - lo + 1)

/-- `OP`, bits 3:0. -/
def fieldOP (c : Word) : Nat := slice c.toNat 3 0
/-- `RD`, bits 7:4. -/
def fieldRD (c : Word) : Nat := slice c.toNat 7 4
/-- `RA`, bits 11:8. -/
def fieldRA (c : Word) : Nat := slice c.toNat 11 8
/-- `RB`, bits 15:12. -/
def fieldRB (c : Word) : Nat := slice c.toNat 15 12
/-- `RM`, bits 19:16. -/
def fieldRM (c : Word) : Nat := slice c.toNat 19 16
/-- `RX`, bits 23:20. -/
def fieldRX (c : Word) : Nat := slice c.toNat 23 20
/-- `RY`, bits 27:24. -/
def fieldRY (c : Word) : Nat := slice c.toNat 27 24
/-- `CHK`, bit 28. -/
def fieldCHK (c : Word) : Nat := slice c.toNat 28 28
/-- `RES`, bits 31:29. -/
def fieldRES (c : Word) : Nat := slice c.toNat 31 29

/-- The register a 4-bit field names: `x[f]` for `f = 0 .. 7`, none for 8 to 15 (30_encoding R72). -/
def regOf (f : Nat) : Option RegId :=
  if h : f < 8 then some ⟨f, h⟩ else none

/-- Case `OP = 1` of R76. -/
def decodeModred (c : Word) : Except Illegal Instr :=
  if fieldCHK c ≠ 0 then .error .chkBit
  else if fieldRY c ≠ 0 ∨ fieldRX c ≠ 0 ∨ fieldRB c ≠ 0 then .error .unusedField
  else
    match regOf (fieldRD c), regOf (fieldRA c), regOf (fieldRM c) with
    | some rd, some ra, some rm => .ok (.modred rd ra rm)
    | _, _, _ => .error .registerNumber

/-- Case `OP = 2` of R76. -/
def decodeModmul (c : Word) : Except Illegal Instr :=
  if fieldCHK c ≠ 0 then .error .chkBit
  else if fieldRY c ≠ 0 ∨ fieldRX c ≠ 0 then .error .unusedField
  else
    match regOf (fieldRD c), regOf (fieldRA c), regOf (fieldRB c), regOf (fieldRM c) with
    | some rd, some ra, some rb, some rm => .ok (.modmul rd ra rb rm)
    | _, _, _, _ => .error .registerNumber

/-- Case `OP = 3` of R76: the one command whose `CHK` may be 1. -/
def decodeModexp (c : Word) : Except Illegal Instr :=
  if fieldRY c ≠ 0 ∨ fieldRX c ≠ 0 then .error .unusedField
  else
    match regOf (fieldRD c), regOf (fieldRA c), regOf (fieldRB c), regOf (fieldRM c) with
    | some rd, some ra, some rb, some rm => .ok (.modexp rd ra rb rm (fieldCHK c == 1))
    | _, _, _, _ => .error .registerNumber

/-- Case `OP = 4` of R76. -/
def decodeXgcd (c : Word) : Except Illegal Instr :=
  if fieldCHK c ≠ 0 then .error .chkBit
  else if fieldRM c ≠ 0 then .error .unusedField
  else
    match regOf (fieldRD c), regOf (fieldRX c), regOf (fieldRY c), regOf (fieldRA c), regOf (fieldRB c) with
    | some rd, some rx, some ry, some ra, some rb =>
      if distinctDests rd rx ry then .ok (.xgcd rd rx ry ra rb) else .error .sameDestination
    | _, _, _, _, _ => .error .registerNumber

/-- Case `OP = 5` of R76. -/
def decodeModinv (c : Word) : Except Illegal Instr :=
  if fieldCHK c ≠ 0 then .error .chkBit
  else if fieldRY c ≠ 0 ∨ fieldRX c ≠ 0 ∨ fieldRB c ≠ 0 then .error .unusedField
  else
    match regOf (fieldRD c), regOf (fieldRA c), regOf (fieldRM c) with
    | some rd, some ra, some rm => .ok (.modinv rd ra rm)
    | _, _, _ => .error .registerNumber

/-- Case `OP = 6` of R76. -/
def decodeLincon (c : Word) : Except Illegal Instr :=
  if fieldCHK c ≠ 0 then .error .chkBit
  else
    match regOf (fieldRD c), regOf (fieldRX c), regOf (fieldRY c), regOf (fieldRA c), regOf (fieldRB c),
        regOf (fieldRM c) with
    | some rd, some rx, some ry, some ra, some rb, some rm =>
      if distinctDests rd rx ry then .ok (.lincon rd rx ry ra rb rm) else .error .sameDestination
    | _, _, _, _, _, _ => .error .registerNumber

/-- The decoder of 30_encoding R76, total on all `2^32` words. A refusal says why the word is illegal (R77). -/
def decode (c : Word) : Except Illegal Instr :=
  if fieldRES c ≠ 0 then .error .reservedBits
  else
    match fieldOP c with
    | 1 => decodeModred c
    | 2 => decodeModmul c
    | 3 => decodeModexp c
    | 4 => decodeXgcd c
    | 5 => decodeModinv c
    | 6 => decodeLincon c
    | _ => .error .opcode

/-- A row of the table of 30_encoding R74: its match, its mask, and whether the further condition applies. -/
structure MaskRow where
  pattern : Word
  mask : Word
  distinct : Bool
  deriving DecidableEq, Repr

/-- The six rows of 30_encoding R74, in the table's order. -/
def maskTable : List MaskRow :=
  [ ⟨0x00000001, 0xFFF8F88F, false⟩,
    ⟨0x00000002, 0xFFF8888F, false⟩,
    ⟨0x00000003, 0xEFF8888F, false⟩,
    ⟨0x00000004, 0xF88F888F, true⟩,
    ⟨0x00000005, 0xFFF8F88F, false⟩,
    ⟨0x00000006, 0xF888888F, true⟩ ]

/-- The "further condition" of R74 on a word: the fields `RD`, `RX`, `RY` pairwise different. -/
def distinctFields (c : Word) : Bool :=
  fieldRD c != fieldRX c && fieldRD c != fieldRY c && fieldRX c != fieldRY c

/-- `c AND mask = match`, and the row's further condition. -/
def MaskRow.admits (r : MaskRow) (c : Word) : Bool :=
  c &&& r.mask == r.pattern && (!r.distinct || distinctFields c)

/-- `legal(c)` of 30_encoding R76, by the table of R74. -/
def legal (c : Word) : Bool :=
  maskTable.any (fun r => r.admits c)

/-- `c = RES*2^29 + CHK*2^28 + RY*2^24 + RX*2^20 + RM*2^16 + RB*2^12 + RA*2^8 + RD*2^4 + OP` with `RES = 0` (30_encoding R70). -/
def pack (chk ry rx rm rb ra rd op : Nat) : Word :=
  BitVec.ofNat 32
    (chk * 2 ^ 28 + ry * 2 ^ 24 + rx * 2 ^ 20 + rm * 2 ^ 16 + rb * 2 ^ 12 + ra * 2 ^ 8 + rd * 2 ^ 4 + op)

/-- The command's word (30_encoding R74, R80): fields the command does not use are 0. -/
def encode : Instr → Word
  | .modred rd ra rm => pack 0 0 0 rm 0 ra rd 1
  | .modmul rd ra rb rm => pack 0 0 0 rm rb ra rd 2
  | .modexp rd ra rb rm chk => pack chk.toNat 0 0 rm rb ra rd 3
  | .xgcd rd rx ry ra rb => pack 0 ry rx 0 rb ra rd 4
  | .modinv rd ra rm => pack 0 0 0 rm 0 ra rd 5
  | .lincon rd rx ry ra rb rm => pack 0 ry rx rm rb ra rd 6

/-- The command word whose low `nbits` bits are those of `w` and whose other bits are 0. -/
def tableWord (nbits w : Nat) : Word :=
  BitVec.ofNat 32 (w % 2 ^ nbits)

/-- What the decoder reads from the opcode table's word (`none` where the word is illegal). -/
def decodeTableWord (nbits w : Nat) : Option Instr :=
  (decode (tableWord nbits w)).toOption

end Sys2Proof
end

