-- ==== Sys2Proof/Config.lean ====
section
/-! DEFINITION. The fixed constants of 00_scope R7, and the one parameter value State.reset is stated at.
The spec leaves no result undefined, so there is no opaque free value here. -/

namespace Sys2Proof.Config

/-- `NREG`, the number of operand registers (00_scope R6). -/
abbrev nreg : Nat := 8

/-- `XBASE`, the word index of limb 0 of `x[0]` (00_scope R7, 20_memory R52). -/
abbrev xbase : Nat := 64

/-- The `L` of `State.reset`. DESIGN CHOICE (log 1): `L` is open (00_scope R5); 16 is the least of a conforming
hardware instance. Every statement about all states holds for every `L` the state may hold. -/
def resetLimbs : Nat := 16

end Sys2Proof.Config
end

