-- ==== Sys2Proof/Machine/State.lean ====
section
/-! DEFINITION. The state of one MAU (10_state R20) with its reset input and its parameter, the agents around it as plain data,
and the reasons a step can stop. -/

namespace Sys2Proof.Machine

/-- The command sequencer's phase (10_state R30). -/
inductive Phase where
  /-- No command outstanding, no result pending. -/
  | idle
  /-- A command has been accepted and has not completed. -/
  | busy
  /-- The last command completed without error. -/
  | done
  /-- The last command completed with an error. -/
  | error
  deriving DecidableEq, Repr

/-- The four errors a command can end in (60_exceptions R130). -/
inductive MauError where
  /-- `E_ILLCMD` (R132). -/
  | illcmd
  /-- `E_MODZERO` (R133). -/
  | modzero
  /-- `E_RANGE`, the document's MessageTooLarge (R135). -/
  | range
  /-- `E_NOINV`, the document's NoInverse (R134). -/
  | noinv
  deriving DecidableEq, Repr

/-- What a command that ends without error writes (60_exceptions R131): registers in order, then the flags. -/
structure Commit where
  /-- The register writes `x[i] <- v`, in the order of the command's rule. -/
  writes : List (RegId × Nat)
  /-- `SX`. -/
  sx : Bool
  /-- `SY`. -/
  sy : Bool
  /-- `EMPTY`. -/
  empty : Bool
  deriving DecidableEq, Repr

/-- What a word index selects in the register space (20_memory R50). -/
inductive WordSel where
  /-- Index 0, CAP. -/
  | cap
  /-- Index 1, CTRL. -/
  | ctrl
  /-- Index 2, STATUS. -/
  | status
  /-- Index 3, CMD. -/
  | cmd
  /-- A reserved index (R53). -/
  | reserved
  /-- Limb `j` of `x[i]` (R52). -/
  | limb (i : RegId) (j : Nat)
  deriving DecidableEq, Repr

/-- One action of the host agent (00_scope R8), as it waits in the queue `State.host`. -/
inductive HostAct where
  /-- `HostRead(k)` (20_memory R56). -/
  | read (k : Nat)
  /-- `HostWrite(k, v)` (20_memory R57). -/
  | write (k : Nat) (v : Word)
  /-- The pseudo-instruction `wait` (30_encoding R81): read STATUS again until its BUSY bit is 0. -/
  | wait
  /-- The pseudo-instruction `clr` (30_encoding R81): `HostWrite(1, 2 + IE)`, keeping the `IE` that is current when it is performed. -/
  | clr
  /-- `HostWrite(k, w)` where `w` is a word a read has returned: the last for `back = 0`, the one before it for 1, and so on. The pseudo-
  instruction `mov` (30_encoding R81) loads with it "that value" (log 13). -/
  | writeBack (k back : Nat)
  /-- The reset input is driven to `level` (70_reset_and_hazards R160). -/
  | rst (level : Bool)
  deriving DecidableEq, Repr

/-- The two agents of 00_scope R8. -/
inductive Agent where
  /-- The host. -/
  | host
  /-- The engine, whose one step is completion. -/
  | engine
  deriving DecidableEq, Repr

/-- The whole state. The first nine fields after `limbs` are the table of 10_state R20. -/
structure State where
  /-- `L`, the limbs per operand register: the parameter of 00_scope R5, held here so that every statement covers every `L`;
  no step changes it (log 1). -/
  limbs : Nat
  /-- `x[0] .. x[7]`, unsigned integers below `2^(32*L)` (10_state R21). -/
  x : Vector Nat 8
  /-- `PHASE` (R30). -/
  phase : Phase
  /-- `CMD`, the last accepted word (R40). -/
  cmd : Word
  /-- `ERRCODE` (R36). -/
  errcode : BitVec 4
  /-- `SX` (R34). -/
  sx : Bool
  /-- `SY` (R34). -/
  sy : Bool
  /-- `EMPTY` (R34). -/
  empty : Bool
  /-- `WRDROP`, sticky (R35). -/
  wrdrop : Bool
  /-- `IE`, interrupt enable (R38). -/
  ie : Bool
  /-- The level of the reset input `rst` (70 R160; log 5). -/
  rst : Bool
  /-- The MODEL's field: what the host does next, oldest first (00_scope R8; log 2). -/
  host : List HostAct
  /-- The MODEL's field: who moves at each step of phase BUSY (20_memory R61; log 3). -/
  turns : List Agent
  /-- The MODEL's field: the words the host's reads have returned, oldest first (20_memory R56; log 4). -/
  returned : List Word
  deriving DecidableEq, Repr

/-- Reasons a step stops the machine: none. Every completion ends in DONE or ERROR, which are states (60_exceptions R131: "there is
no hang, no retry and no partial outcome"), and a refused host write is a state too (20_memory R59). Nothing raises a fault; the empty
type says so to Lean (log 8). Safe. -/
inductive Fault where
  deriving DecidableEq, Repr

/-- Reasons a step is given no meaning. -/
inductive Refusal where
  /-- An instruction without a meaning yet; raised by no arm of `exec`, since all six have theirs. Safe. -/
  | notModelled (mnemonic : String)
  /-- A host access while the reset input is asserted: "the MAU defines no behaviour for such an access (a model gives it no step)"
  (70_reset_and_hazards R160, 93 U6). Raised by the host's step only (log 5). Safe. -/
  | accessDuringReset
  deriving DecidableEq, Repr

/-- The MAU with `L` limbs right after reset (10_state R45), the reset input released, the host not yet having done anything. -/
def State.resetAt (L : Nat) : State where
  limbs := L
  x := Vector.replicate 8 0
  phase := .idle
  cmd := 0
  errcode := 0
  sx := false
  sy := false
  empty := false
  wrdrop := false
  ie := false
  rst := false
  host := []
  turns := []
  returned := []

/-- The machine right after reset (10_state R45), at the `L` of log 1. -/
def State.reset : State :=
  State.resetAt Config.resetLimbs

end Sys2Proof.Machine
end

