-- ==== Sys2Proof/Machine/Arith.lean ====
section
/-! DEFINITION. The pure functions of the three sub-units (00_scope R2): `red` and `mulmod` (R13, R14), `modpow` (41 R100), `xgcd` (42 R110),
`modinv` (43 R120), `lincon` (43 R124), on mathematical integers (00_scope R10). -/

namespace Sys2Proof.Machine

/-- `red(v, m) = v mod m` (00_scope R13). -/
def red (v m : Nat) : Nat :=
  v % m

/-- `mulmod(a, b, m) = red(a * b, m)`, the exact product reduced (00_scope R14). -/
def mulmod (a b m : Nat) : Nat :=
  red (a * b) m

/-- `bitlen(n)`, the least `k` with `n < 2^k` (00_scope R15). -/
def bitlen (n : Nat) : Nat :=
  if n = 0 then 0 else n.log2 + 1

/-- The loop of `modpow` (41 R100), `i` bits of `e` still to scan, the most significant of them first. -/
def modpowScan (base e m : Nat) : Nat → Nat → Nat
  | 0, acc => acc
  | i + 1, acc =>
    let sq := mulmod acc acc m
    modpowScan base e m i (if e.testBit i then mulmod sq base m else sq)

/-- `modpow(b, e, m)` (41 R100). -/
def modpow (b e m : Nat) : Nat :=
  modpowScan (red b m) e m (bitlen e) (red 1 m)

/-- The loop of `xgcd` (42 R110) on its six working values; `fuel` bounds the passes. -/
def xgcdLoop : Nat → Nat → Nat → Int → Int → Int → Int → Nat × Int × Int
  | 0, oldR, _, oldS, _, oldT, _ => (oldR, oldS, oldT)
  | fuel + 1, oldR, r, oldS, s, oldT, t =>
    if r = 0 then (oldR, oldS, oldT)
    else
      xgcdLoop fuel r (oldR - oldR / r * r) s (oldS - (oldR / r : Nat) * s) t (oldT - (oldR / r : Nat) * t)

/-- `xgcd(a, b)` (42 R110). "There are at most `b + 1` passes" (R112 item 3), which is the fuel (log 10). -/
def xgcd (a b : Nat) : Nat × Int × Int :=
  xgcdLoop (b + 1) a b 1 0 0 1

/-- `modinv(a, m)` (43 R120); `none` is NoInverse. -/
def modinv (a m : Nat) : Option Nat :=
  match xgcd (red a m) m with
  | (g, s, _) => if g ≠ 1 then none else some (s % (m : Int)).toNat

/-- `lincon(a, b, m)` (43 R124): the triple `(z0, n, p)`; `none` is Empty. -/
def lincon (a b m : Nat) : Option (Nat × Nat × Nat) :=
  match xgcd (red a m) m with
  | (g, s, _) =>
    if red b m % g ≠ 0 then none
    else some (mulmod (red b m / g) (s % ((m / g : Nat) : Int)).toNat (m / g), g, m / g)

end Sys2Proof.Machine
end

