-- ==== Sys2Proof/Machine/Operands.lean ====
section
/-! DEFINITION. Operand access: registers (10_state R21, 00_scope R16), limbs (00_scope R11, 20_memory R54), and the word indices of
the register space (20_memory R50 to R53). -/

namespace Sys2Proof.Machine

/-- `x[i]`, read (00_scope R16). -/
def State.readReg (s : State) (i : RegId) : Nat :=
  s.x[i]

/-- `x[i] <- v` (00_scope R16): the whole register; the rule requires `v < 2^W`, so nothing is truncated (00_scope R5; log 6). -/
def State.writeReg (s : State) (i : RegId) (v : Nat) : State :=
  { s with x := s.x.set i v }

/-- The register writes of a command, in order (60_exceptions R131). -/
def State.writeRegs (s : State) : List (RegId × Nat) → State
  | [] => s
  | (i, v) :: rest => (s.writeReg i v).writeRegs rest

/-- Limb `j` of the value `v`: bits `32*j+31 : 32*j` (00_scope R11). -/
def limbOf (v j : Nat) : Word :=
  BitVec.ofNat 32 (v / 2 ^ (32 * j))

/-- `v` with bits `32*j+31 : 32*j` replaced by `w` (20_memory R58). -/
def setLimb (v j : Nat) (w : Word) : Nat :=
  v % 2 ^ (32 * j) + w.toNat * 2 ^ (32 * j) + v / 2 ^ (32 * (j + 1)) * 2 ^ (32 * (j + 1))

/-- `sum over j in 0 .. n-1 of limb(j) * 2^(32*j)` (20_memory R54). -/
def sumLimbs (v : Nat) : Nat → Nat
  | 0 => 0
  | n + 1 => sumLimbs v n + (limbOf v n).toNat * 2 ^ (32 * n)

/-- The word index of limb `j` of `x[i]`: `XBASE + i*L + j` (20_memory R52). -/
def limbIndex (L : Nat) (i : RegId) (j : Nat) : Nat :=
  Config.xbase + i.val * L + j

/-- What word index `k` selects (20_memory R50): `i = (k - 64) div L`, `j = (k - 64) mod L` inside the window. -/
def selectWord (L k : Nat) : WordSel :=
  if k = 0 then .cap
  else if k = 1 then .ctrl
  else if k = 2 then .status
  else if k = 3 then .cmd
  else if k < Config.xbase then .reserved
  else if k < Config.xbase + Config.nreg * L then
    .limb (Fin.ofNat 8 ((k - Config.xbase) / L)) ((k - Config.xbase) % L)
  else .reserved

/-- The byte address of byte `n` of word `k` on a byte-addressed bus whose platform places word 0 at `base`
(20_memory R51, R54): the platform's mapping, on which no step depends. -/
def byteAddress (base k n : Nat) : Nat :=
  base + 4 * k + n

/-- Byte `n` of a word on such a bus: bits `8*n+7 : 8*n` (20_memory R54). -/
def byteOf (w : Word) (n : Nat) : BitVec 8 :=
  w.extractLsb' (8 * n) 8

end Sys2Proof.Machine
end

