-- ==== Sys2Proof/Machine/Flags.lean ====
section
/-! DEFINITION. Flags and the words computed from them: sign flags (00_scope R15), error codes (60_exceptions R130), STATUS (10_state R39),
CTRL and CAP as read (R38, R37), and the interrupt line (R41). -/

namespace Sys2Proof.Machine

/-- `neg(z) = 1 if z < 0 else 0` (00_scope R15): a zero has sign flag 0. -/
def neg (z : Int) : Bool :=
  decide (z < 0)

/-- The value of ERRCODE for each error (60_exceptions R130). -/
def MauError.code : MauError → BitVec 4
  | .illcmd => 1
  | .modzero => 2
  | .range => 3
  | .noinv => 4

/-- STATUS as read (10_state R39): BUSY 0, DONE 1, ERR 2, WRDROP 3, ERRCODE 7:4, SX 8, SY 9, EMPTY 10, the rest 0. -/
def State.statusWord (s : State) : Word :=
  BitVec.ofNat 32
    ((decide (s.phase = .busy)).toNat + (decide (s.phase = .done)).toNat * 2 + (decide (s.phase = .error)).toNat * 4 + s.wrdrop.toNat * 8
      + s.errcode.toNat * 16 + s.sx.toNat * 256 + s.sy.toNat * 512 + s.empty.toNat * 1024)

/-- CAP (10_state R37): `L` in bits 15:0, the register count in bits 19:16, 0 above. -/
def capWord (L : Nat) : Word :=
  BitVec.ofNat 32 (L % 2 ^ 16 + Config.nreg * 2 ^ 16)

/-- CTRL as read (10_state R38): `IE` in bit 0, 0 above; CLR and SRST always read 0. -/
def State.ctrlWord (s : State) : Word :=
  BitVec.ofNat 32 s.ie.toNat

/-- The output `irq`, a level without state of its own (10_state R41, 60_exceptions R137). -/
def State.irq (s : State) : Bool :=
  s.ie && decide (s.phase = .done ∨ s.phase = .error)

end Sys2Proof.Machine
end

