-- ==== Sys2Proof/Machine/Ops.lean ====
section
/-! DEFINITION. The named operations on the state: ending a command in an error or in its results (60_exceptions R131), acknowledge (R141),
the reset action (70 R161), acceptance (10_state R33), the drop rule (20_memory R59), and the host's reads and writes (R56, R57). -/

namespace Sys2Proof.Machine

/-- A command ends in an error: the MAU's "trap entry" (60_exceptions R131, R140). No operand register is written, CMD keeps the word. -/
def State.raise (s : State) (e : MauError) : State :=
  { s with phase := .error, errcode := e.code, sx := false, sy := false, empty := false }

/-- A command ends without error: its writes and flags take effect and PHASE becomes DONE (60_exceptions R131). -/
def State.retire (s : State) (c : Commit) : State :=
  { s.writeRegs c.writes with phase := .done, sx := c.sx, sy := c.sy, empty := c.empty }

/-- The commit of the completion step, whole (60_exceptions R131). -/
def State.commit (s : State) : Except MauError Commit → State
  | .error e => s.raise e
  | .ok c => s.retire c

/-- A commit that writes registers and leaves the three flags 0 ("0 where it gives none", 60_exceptions R131). -/
def Commit.plain (writes : List (RegId × Nat)) : Commit where
  writes := writes
  sx := false
  sy := false
  empty := false

/-- Acknowledge, the MAU's "return from trap" (60_exceptions R141). -/
def State.acknowledge (s : State) : State :=
  match s.phase with
  | .done | .error =>
    { s with wrdrop := false, phase := .idle, errcode := 0, sx := false, sy := false, empty := false }
  | .idle | .busy => { s with wrdrop := false }

/-- The reset action, common to hard and soft reset (70 R161). The parameter and the agents outside the unit are not its state. -/
def State.resetAction (s : State) : State :=
  { s with
    x := Vector.replicate 8 0, phase := .idle, cmd := 0, errcode := 0, sx := false, sy := false, empty := false,
    wrdrop := false, ie := false }

/-- The reset input is driven to `level` (70 R160): while asserted, and when released, the state has its reset values.
Driving a released input low changes nothing (log 5). -/
def State.driveRst (s : State) (level : Bool) : State :=
  if level || s.rst then { s.resetAction with rst := level } else s

/-- A host write is dropped: nothing changes but `WRDROP <- 1` (20_memory R59, 10_state R35). -/
def State.drop (s : State) : State :=
  { s with wrdrop := true }

/-- The command word `v` is accepted (10_state R33), legal or not. -/
def State.accept (s : State) (v : Word) : State :=
  { s with cmd := v, phase := .busy, errcode := 0, sx := false, sy := false, empty := false }

/-- A host write to CMD (10_state R33): accepted in IDLE and DONE, dropped in BUSY and ERROR. -/
def State.writeCmd (s : State) (v : Word) : State :=
  match s.phase with
  | .idle | .done => s.accept v
  | .busy | .error => s.drop

/-- A host write to CTRL (10_state R38), never dropped: SRST alone, or IE and then CLR. -/
def State.writeCtrl (s : State) (v : Word) : State :=
  if v.getLsbD 2 then s.resetAction
  else if v.getLsbD 1 then { s with ie := v.getLsbD 0 }.acknowledge
  else { s with ie := v.getLsbD 0 }

/-- A host write to limb `j` of `x[i]` (20_memory R58): dropped in BUSY. -/
def State.writeLimb (s : State) (i : RegId) (j : Nat) (v : Word) : State :=
  match s.phase with
  | .busy => s.drop
  | .idle | .done | .error => s.writeReg i (setLimb (s.readReg i) j v)

/-- `HostRead(k)` (20_memory R56): the value returned, in any phase; a read changes no state. -/
def State.hostRead (s : State) (k : Nat) : Word :=
  match selectWord s.limbs k with
  | .cap => capWord s.limbs
  | .ctrl => s.ctrlWord
  | .status => s.statusWord
  | .cmd => s.cmd
  | .reserved => 0
  | .limb i j => limbOf (s.readReg i) j

/-- `HostWrite(k, v)` (20_memory R57). -/
def State.hostWrite (s : State) (k : Nat) (v : Word) : State :=
  match selectWord s.limbs k with
  | .cap => s.drop
  | .ctrl => s.writeCtrl v
  | .status => s.drop
  | .cmd => s.writeCmd v
  | .reserved => s.drop
  | .limb i j => s.writeLimb i j v

end Sys2Proof.Machine
end

