-- ==== Sys2Proof/Machine/Congruence.lean ====
section
/-! DEFINITION. The GCD unit's MODINV (43 R121) and LINCON (43 R125). -/

namespace Sys2Proof.Machine

/-- The pseudocode of 43 R121 on the values read: E_MODZERO is tested before E_NOINV (60_exceptions R136). -/
def modinvResult (rd : RegId) (a m : Nat) : Except MauError Commit :=
  if m = 0 then .error .modzero
  else
    match modinv a m with
    | none => .error .noinv
    | some v => .ok (Commit.plain [(rd, v)])

/-- `modinv xd, xa, xm` (43 R121): the inverse in `[0, m)`, or E_NOINV. -/
def execModinv (rd ra rm : RegId) (s : State) : Host.Outcome State Fault Refusal :=
  .next (s.commit (modinvResult rd (s.readReg ra) (s.readReg rm)))

/-- No solution: three zeros and EMPTY, a result and not an error (43 R125). -/
def emptyCommit (rd rx ry : RegId) : Commit where
  writes := [(rd, 0), (rx, 0), (ry, 0)]
  sx := false
  sy := false
  empty := true

/-- The pseudocode of 43 R125 on the values read. Equal destination fields are no command: E_ILLCMD (30_encoding R78; log 11). -/
def linconResult (rd rx ry : RegId) (a b m : Nat) : Except MauError Commit :=
  if distinctDests rd rx ry then
    if m = 0 then .error .modzero
    else
      match lincon a b m with
      | none => .ok (emptyCommit rd rx ry)
      | some (z0, n, p) => .ok (Commit.plain [(rd, z0), (rx, n), (ry, p)])
  else .error .illcmd

/-- `lincon xz, xn, xp, xa, xb, xm` (43 R125): least solution, number of solutions, spacing. -/
def execLincon (rd rx ry ra rb rm : RegId) (s : State) : Host.Outcome State Fault Refusal :=
  .next (s.commit (linconResult rd rx ry (s.readReg ra) (s.readReg rb) (s.readReg rm)))

end Sys2Proof.Machine
end

