-- ==== Sys2Proof/Machine/Euclid.lean ====
section
/-! DEFINITION. The GCD unit's XGCD (42 R111): gcd and Bezout coefficients by sign and magnitude. -/

namespace Sys2Proof.Machine

/-- The writes and flags of 42 R111 for the triple `(g, s, t)`: magnitudes into the registers, signs into SX and SY. -/
def xgcdCommit (rd rx ry : RegId) (g : Nat) (s t : Int) : Commit where
  writes := [(rd, g), (rx, s.natAbs), (ry, t.natAbs)]
  sx := neg s
  sy := neg t
  empty := false

/-- The pseudocode of 42 R111 on the values read. Equal destination fields are no command: E_ILLCMD (30_encoding R78; log 11). -/
def xgcdResult (rd rx ry : RegId) (a b : Nat) : Except MauError Commit :=
  if distinctDests rd rx ry then
    match xgcd a b with
    | (g, s, t) => .ok (xgcdCommit rd rx ry g s t)
  else .error .illcmd

/-- `xgcd xg, xs, xt, xa, xb` (42 R111): total on register values, no error but E_ILLCMD. -/
def execXgcd (rd rx ry ra rb : RegId) (s : State) : Host.Outcome State Fault Refusal :=
  .next (s.commit (xgcdResult rd rx ry (s.readReg ra) (s.readReg rb)))

end Sys2Proof.Machine
end

