-- ==== Sys2Proof/Machine/Exponent.lean ====
section
/-! DEFINITION. The EXP unit's command: MODEXP with its domain check (41 R101, R103). -/

namespace Sys2Proof.Machine

/-- The pseudocode of 41 R101 on the values read: E_MODZERO is tested before E_RANGE (60_exceptions R136). -/
def modexpResult (rd : RegId) (chk : Bool) (b e m : Nat) : Except MauError Commit :=
  if m = 0 then .error .modzero
  else if chk && decide (m ≤ b) then .error .range
  else .ok (Commit.plain [(rd, modpow b e m)])

/-- `modexp xd, xa, xe, xm` and `modexp.chk` (41 R101): `x[RD] <- x[RA] ^ x[RB] mod x[RM]`; with `CHK` a base at or above the modulus
is E_RANGE (R103). -/
def execModexp (rd ra rb rm : RegId) (chk : Bool) (s : State) : Host.Outcome State Fault Refusal :=
  .next (s.commit (modexpResult rd chk (s.readReg ra) (s.readReg rb) (s.readReg rm)))

end Sys2Proof.Machine
end

