-- ==== Sys2Proof/Machine/Reduction.lean ====
section
/-! DEFINITION. The RED unit's command and the multiplier's: MODRED (40 R90) and MODMUL (40 R93). -/

namespace Sys2Proof.Machine

/-- The pseudocode of 40 R90 on the values read. -/
def modredResult (rd : RegId) (a m : Nat) : Except MauError Commit :=
  if m = 0 then .error .modzero else .ok (Commit.plain [(rd, red a m)])

/-- `modred xd, xa, xm` (40 R90): `x[RD] <- x[RA] mod x[RM]`; E_MODZERO iff `x[RM] = 0`. -/
def execModred (rd ra rm : RegId) (s : State) : Host.Outcome State Fault Refusal :=
  .next (s.commit (modredResult rd (s.readReg ra) (s.readReg rm)))

/-- The pseudocode of 40 R93 on the values read. -/
def modmulResult (rd : RegId) (a b m : Nat) : Except MauError Commit :=
  if m = 0 then .error .modzero else .ok (Commit.plain [(rd, mulmod a b m)])

/-- `modmul xd, xa, xb, xm` (40 R93): `x[RD] <- x[RA] * x[RB] mod x[RM]`; E_MODZERO iff `x[RM] = 0`. -/
def execModmul (rd ra rb rm : RegId) (s : State) : Host.Outcome State Fault Refusal :=
  .next (s.commit (modmulResult rd (s.readReg ra) (s.readReg rb) (s.readReg rm)))

end Sys2Proof.Machine
end

