-- ==== Sys2Proof/Machine/Dispatch.lean ====
section
/-! DEFINITION. One arm per command, each a direct call of its meaning. -/

namespace Sys2Proof.Machine

def exec (i : Instr) (s : State) : Host.Outcome State Fault Refusal :=
  match i with
  | .modred rd ra rm => Sys2Proof.Machine.execModred rd ra rm s
  | .modmul rd ra rb rm => Sys2Proof.Machine.execModmul rd ra rb rm s
  | .modexp rd ra rb rm chk => Sys2Proof.Machine.execModexp rd ra rb rm chk s
  | .xgcd rd rx ry ra rb => Sys2Proof.Machine.execXgcd rd rx ry ra rb s
  | .modinv rd ra rm => Sys2Proof.Machine.execModinv rd ra rm s
  | .lincon rd rx ry ra rb rm => Sys2Proof.Machine.execLincon rd rx ry ra rb rm s

end Sys2Proof.Machine
end

