-- ==== Sys2Proof/Machine/Agents.lean ====
section
/-! DEFINITION. The two agents of 00_scope R8: the engine's completion step (60_exceptions R131), the host's next action, who moves
(20_memory R61), and placing a command as the next thing to complete. -/

namespace Sys2Proof.Machine

/-- Completion (60_exceptions R131): decode CMD; an illegal word is E_ILLCMD whatever the registers hold (R132), a command is executed. -/
def State.complete (s : State) : Host.Outcome State Fault Refusal :=
  match decode s.cmd with
  | .error _ => .next (s.raise .illcmd)
  | .ok i => exec i s

/-- Whether the next step is the engine's. It is enabled exactly in BUSY (10_state R30) and not under reset (70 R160); it moves unless the
next turn is the host's and the host has something to do, so a finite list of turns ends in a completion (70 R180; log 3). -/
def State.engineMoves (s : State) : Bool :=
  decide (s.phase = .busy) && !s.rst && (s.host.isEmpty || decide (s.turns.head? ≠ some .host))

/-- A step of phase BUSY uses up one turn; in other phases the engine is not enabled and there is no choice to make. -/
def State.takeTurn (s : State) : State :=
  match s.phase with
  | .busy => { s with turns := s.turns.tail }
  | .idle | .done | .error => s

/-- The host has `rest` still to do. -/
def State.withHost (s : State) (rest : List HostAct) : State :=
  { s with host := rest }

/-- The host takes the word `v` as the value of its read (20_memory R56) and goes on with `rest`. -/
def State.deliver (s : State) (v : Word) (rest : List HostAct) : State :=
  { s with returned := s.returned ++ [v], host := rest }

/-- The word a read returned `back` reads before the last one, if there were so many. -/
def State.wordBack (s : State) (back : Nat) : Option Word :=
  s.returned.reverse[back]?

/-- What `clr` writes to CTRL (30_encoding R81): `CLR` and the current `IE`. -/
def State.clrWord (s : State) : Word :=
  BitVec.ofNat 32 (2 + s.ie.toNat)

/-- The word index and the value an action of the host presents as a write (20_memory R57), if it is a write. -/
def State.writeOf (s : State) (a : HostAct) : Option (Nat × Word) :=
  match a with
  | .write k v => some (k, v)
  | .clr => some (1, s.clrWord)
  | .writeBack k back => (s.wordBack back).map (fun v => (k, v))
  | .read _ => none
  | .wait => none
  | .rst _ => none

/-- The host performs a write action: `HostWrite` of what the action presents. A `writeBack` of a word that was never read presents
nothing (log 13). -/
def State.performWrite (s : State) (a : HostAct) (rest : List HostAct) : State :=
  match s.writeOf a with
  | some (k, v) => (s.withHost rest).hostWrite k v
  | none => s.withHost rest

/-- The host's next action (00_scope R8). With nothing pending the MAU is quiescent (60_exceptions R146, 70 R163; log 7). An access while
`rst` is asserted is refused (70 R160). `wait` polls STATUS until its bit 0 is 0 (30_encoding R81). -/
def State.hostMoves (s : State) : Host.Outcome State Fault Refusal :=
  match s.host with
  | [] => .next s
  | .rst level :: rest => .next ((s.withHost rest).driveRst level)
  | .read k :: rest =>
    if s.rst then .refused .accessDuringReset else .next (s.deliver (s.hostRead k) rest)
  | .write k v :: rest =>
    if s.rst then .refused .accessDuringReset else .next (s.performWrite (.write k v) rest)
  | .clr :: rest =>
    if s.rst then .refused .accessDuringReset else .next (s.performWrite .clr rest)
  | .writeBack k back :: rest =>
    if s.rst then .refused .accessDuringReset else .next (s.performWrite (.writeBack k back) rest)
  | .wait :: rest =>
    if s.rst then .refused .accessDuringReset
    else .next (s.deliver s.statusWord (if s.statusWord.getLsbD 0 then .wait :: rest else rest))

/-- One step of the machine: the engine's or the host's. -/
def State.advance (s : State) : Host.Outcome State Fault Refusal :=
  if s.engineMoves then s.takeTurn.complete else s.takeTurn.hostMoves

/-- The word `v` accepted (10_state R33), the reset input released, and the next turn the engine's: the very next step completes `v`
(log 12). -/
def State.placeCommand (s : State) (v : Word) : State :=
  { s.accept v with rst := false, turns := .engine :: s.turns }

end Sys2Proof.Machine
end

