-- ==== Sys2Proof/Machine/Script.lean ====
section
/-! DEFINITION. The host-script pseudo-instructions of 30_encoding R81, each as the list of host actions it expands to. -/

namespace Sys2Proof.Machine

/-- `HostWrite(64 + i*L + j, N[32*j+31 : 32*j])` for `j = j0 .. j0+n-1`, ascending. -/
def loadLimbs (L : Nat) (i : RegId) (N : Nat) : Nat → Nat → List HostAct
  | _, 0 => []
  | j, n + 1 => .write (limbIndex L i j) (limbOf N j) :: loadLimbs L i N (j + 1) n

/-- `ld xi, N`. -/
def scriptLd (L : Nat) (i : RegId) (N : Nat) : List HostAct :=
  loadLimbs L i N 0 L

/-- `HostRead(64 + i*L + j)` for `j = j0 .. j0+n-1`, ascending. -/
def readLimbs (L : Nat) (i : RegId) : Nat → Nat → List HostAct
  | _, 0 => []
  | j, n + 1 => .read (limbIndex L i j) :: readLimbs L i (j + 1) n

/-- `rd xi`. -/
def scriptRd (L : Nat) (i : RegId) : List HostAct :=
  readLimbs L i 0 L

/-- The value an `rd` yields: the sum of `limb_j * 2^(32*j)` over the words it returned, lowest first. -/
def valueOfLimbs : List Word → Nat
  | [] => 0
  | w :: rest => w.toNat + 2 ^ 32 * valueOfLimbs rest

/-- `run <command>`: `HostWrite(3, word of the command)`. -/
def scriptRun (i : Instr) : List HostAct :=
  [.write 3 (encode i)]

/-- `wait`. -/
def scriptWait : List HostAct :=
  [.wait]

/-- `clr`: `HostWrite(1, 2 + IE)`, keeping the current `IE`. -/
def scriptClr : List HostAct :=
  [.clr]

/-- `srst`: `HostWrite(1, 4)`. -/
def scriptSrst : List HostAct :=
  [.write 1 4]

/-- `ien`: `HostWrite(1, 1)`. -/
def scriptIen : List HostAct :=
  [.write 1 1]

/-- `idis`: `HostWrite(1, 0)`. -/
def scriptIdis : List HostAct :=
  [.write 1 0]

/-- `HostWrite(64 + i*L + j, w_j)` for `j = j0 .. j0+n-1`, ascending, where the `w_j` are the last `n` words a read has returned, oldest
first. A write returns nothing, so the words stay the last ones. -/
def loadBack (L : Nat) (i : RegId) : Nat → Nat → List HostAct
  | _, 0 => []
  | j, n + 1 => .writeBack (limbIndex L i j) n :: loadBack L i (j + 1) n

/-- `mov xd, xs`: `rd xs`, followed by `ld xd` of the value that it yielded, limb by limb. -/
def scriptMov (L : Nat) (xd xs : RegId) : List HostAct :=
  scriptRd L xs ++ loadBack L xd 0 L

end Sys2Proof.Machine
end

