-- ==== Sys2Proof/Machine/Step.lean ====
section
/-! DEFINITION. The step function, and placing a word where the next step takes its command from. -/

namespace Sys2Proof.Machine

/-- One step of the MAU and its host (00_scope R8): see `State.advance`. -/
def step (s : State) : Host.Outcome State Fault Refusal :=
  s.advance

/-- `s` with the command of the opcode table's word accepted, so that the very next step completes it (log 12). -/
def State.withFetchWord (s : State) (nbits w : Nat) : State :=
  s.placeCommand (tableWord nbits w)

end Sys2Proof.Machine
end

