-- ==== Sys2Proof/Safety.lean ====
section
/-! DEFINITION. The terms claims are stated in: the invariants of 10_state R43, what a completed or failed command leaves alone, a command as
a pure function (00_scope R9), and the spec's second ways of saying a function (the rows of 42 R110, the other scan of 41 R102). -/

namespace Sys2Proof.Machine

/-- The state is that of a MAU of the spec's parameter range (00_scope R5, 10_state R37) and every register is below `2^W` (R43 item 4). -/
abbrev State.WidthInv (s : State) : Prop :=
  1 ≤ s.limbs ∧ s.limbs < 2 ^ 16 ∧ ∀ r : RegId, s.readReg r < 2 ^ (32 * s.limbs)

/-- 10_state R43 item 1: ERRCODE is not 0 iff PHASE is ERROR, and it is at most 4. -/
abbrev State.ErrInv (s : State) : Prop :=
  (s.errcode ≠ 0 ↔ s.phase = .error) ∧ s.errcode.toNat ≤ 4

/-- 10_state R43 item 2, and 42 R113: SX and SY only in DONE after XGCD and never both, EMPTY only in DONE after LINCON. -/
abbrev State.FlagInv (s : State) : Prop :=
  ((s.sx = true ∨ s.sy = true) → s.phase = .done ∧ fieldOP s.cmd = 4)
    ∧ (s.empty = true → s.phase = .done ∧ fieldOP s.cmd = 6)
    ∧ ¬(s.sx = true ∧ s.sy = true)

/-- Every register of 10_state R20 at its reset value (R45). -/
abbrev State.AtReset (s : State) : Prop :=
  (∀ r : RegId, s.readReg r = 0) ∧ s.phase = .idle ∧ s.cmd = 0 ∧ s.errcode = 0 ∧ s.sx = false ∧ s.sy = false
    ∧ s.empty = false ∧ s.wrdrop = false ∧ s.ie = false

/-- The invariant of the machine: 10_state R43 items 1, 2, 4, and "while it is asserted ... all state has the reset values" (70 R160). -/
abbrev State.Inv (s : State) : Prop :=
  s.WidthInv ∧ s.ErrInv ∧ s.FlagInv ∧ (s.rst = true → s.AtReset)

/-- What no completion changes (60_exceptions R131: "CMD, WRDROP, IE are never changed by completion"), and what lies outside the unit. -/
abbrev SameRest (s t : State) : Prop :=
  t.limbs = s.limbs ∧ t.cmd = s.cmd ∧ t.wrdrop = s.wrdrop ∧ t.ie = s.ie ∧ t.rst = s.rst ∧ t.host = s.host
    ∧ t.turns = s.turns ∧ t.returned = s.returned

/-- `t` is `s` after a command that ended without error with these flags, having written at most the registers `dests`. -/
abbrev EndsDone (s t : State) (sx sy empty : Bool) (dests : List RegId) : Prop :=
  t.phase = .done ∧ t.errcode = s.errcode ∧ t.sx = sx ∧ t.sy = sy ∧ t.empty = empty
    ∧ (∀ r, r ∉ dests → t.readReg r = s.readReg r) ∧ SameRest s t

/-- `t` is `s` after a command that ended in the error `e`: no register written, flags 0 (60_exceptions R131, R140). -/
abbrev EndsError (s t : State) (e : MauError) : Prop :=
  t.phase = .error ∧ t.errcode = e.code ∧ t.sx = false ∧ t.sy = false ∧ t.empty = false
    ∧ (∀ r, t.readReg r = s.readReg r) ∧ SameRest s t

/-- The registers a command may write. -/
def destsOf : Instr → List RegId
  | .modred rd _ _ => [rd]
  | .modmul rd _ _ _ => [rd]
  | .modexp rd _ _ _ _ => [rd]
  | .xgcd rd rx ry _ _ => [rd, rx, ry]
  | .modinv rd _ _ => [rd]
  | .lincon rd rx ry _ _ _ => [rd, rx, ry]

/-- The modulus register of the five commands that have one (60_exceptions R133); `xgcd` has none. -/
def modulusOf : Instr → Option RegId
  | .modred _ _ rm => some rm
  | .modmul _ _ _ rm => some rm
  | .modexp _ _ _ rm _ => some rm
  | .xgcd _ _ _ _ _ => none
  | .modinv _ _ rm => some rm
  | .lincon _ _ _ _ _ rm => some rm

/-- A command as a function of the register file alone (00_scope R9): its error, or its writes and flags. -/
def resultOf (i : Instr) (x : RegId → Nat) : Except MauError Commit :=
  match i with
  | .modred rd ra rm => modredResult rd (x ra) (x rm)
  | .modmul rd ra rb rm => modmulResult rd (x ra) (x rb) (x rm)
  | .modexp rd ra rb rm chk => modexpResult rd chk (x ra) (x rb) (x rm)
  | .xgcd rd rx ry ra rb => xgcdResult rd rx ry (x ra) (x rb)
  | .modinv rd ra rm => modinvResult rd (x ra) (x rm)
  | .lincon rd rx ry ra rb rm => linconResult rd rx ry (x ra) (x rb) (x rm)

/-- The outcome of an accepted word on the register file (60_exceptions R131): E_ILLCMD, or the command's. -/
def outcomeOf (c : Word) (x : RegId → Nat) : Except MauError Commit :=
  match decode c with
  | .error _ => .error .illcmd
  | .ok i => resultOf i x

/-- The signed coefficient the host recovers from a magnitude and its sign flag: `(1 - 2*S) * x` (42 R111). -/
def signedValue (negative : Bool) (magnitude : Nat) : Int :=
  if negative then -(magnitude : Int) else magnitude

/-- The six working values of the Euclid iteration (42 R110). -/
structure EuclidRow where
  oldR : Nat
  r : Nat
  oldS : Int
  s : Int
  oldT : Int
  t : Int
  deriving DecidableEq, Repr

/-- The start row of 42 R110. -/
def EuclidRow.start (a b : Nat) : EuclidRow := ⟨a, b, 1, 0, 0, 1⟩

/-- One pass of the loop of 42 R110, its three assignments simultaneous. -/
def EuclidRow.pass (e : EuclidRow) : EuclidRow :=
  ⟨e.r, e.oldR - e.oldR / e.r * e.r, e.s, e.oldS - (e.oldR / e.r : Nat) * e.s, e.t, e.oldT - (e.oldR / e.r : Nat) * e.t⟩

/-- The row after `k` passes. -/
def euclidRows (a b : Nat) : Nat → EuclidRow
  | 0 => EuclidRow.start a b
  | k + 1 => (euclidRows a b k).pass

/-- The least-significant-first scan of 41 R102 item 7: `n` bits still to scan, bit `i` next, `p` the running square. -/
def modpowLsbScan (e m : Nat) : Nat → Nat → Nat → Nat → Nat
  | 0, _, _, acc => acc
  | n + 1, i, p, acc => modpowLsbScan e m n (i + 1) (mulmod p p m) (if e.testBit i then mulmod acc p m else acc)

/-- `modpow` by the least-significant-first scan (41 R102 item 7). -/
def modpowLsb (b e m : Nat) : Nat :=
  modpowLsbScan e m (bitlen e) 0 (red b m) (red 1 m)

/-- The host's next action presents the write of `v` to word index `k`, and it is the host that moves. -/
abbrev HostWrites (s : State) (k : Nat) (v : Word) : Prop :=
  s.engineMoves = false ∧ s.rst = false ∧ ∃ a rest, s.host = a :: rest ∧ s.writeOf a = some (k, v)

/-- The host's next action drives the reset input, and it is the host that moves. -/
abbrev HostDrivesRst (s : State) (level : Bool) : Prop :=
  s.engineMoves = false ∧ ∃ rest, s.host = .rst level :: rest

/-- The step resets the machine: a soft reset (10_state R38, `v[2] = 1`), or `rst` asserted or released (70 R160). -/
abbrev StepResets (s : State) : Prop :=
  (∃ v : Word, HostWrites s 1 v ∧ v.getLsbD 2 = true)
    ∨ ∃ level, HostDrivesRst s level ∧ (level = true ∨ s.rst = true)

/-- The step is a host write to CTRL with CLR = 1 and SRST = 0 (60_exceptions R141). -/
abbrev StepAcknowledges (s : State) : Prop :=
  ∃ v : Word, HostWrites s 1 v ∧ v.getLsbD 2 = false ∧ v.getLsbD 1 = true

/-- The host queue holds no reset: no drive of `rst`, and no CTRL write with SRST = 1 or of a word read back, which may hold it (R180: "every accepted command completes", but for
R183's soft reset). -/
def noReset : List HostAct → Bool
  | [] => true
  | .rst _ :: _ => false
  | .write k v :: rest => !(k == 1 && v.getLsbD 2) && noReset rest
  | .read _ :: rest => noReset rest
  | .wait :: rest => noReset rest
  | .clr :: rest => noReset rest
  | .writeBack k _ :: rest => k != 1 && noReset rest

end Sys2Proof.Machine
end

