-- ==== Sys2Proof/Certificates/Slice0/Obligations.lean ====
section
/-! DEFINITION. The statements for the provers, from the spec's numbered rules. -/

section
open Sys2Proof Sys2Proof.Machine

/-! ### Encoding -/

/-- 30_encoding R70, R74, R76: decoding the word of a well-formed command gives that command back. -/
def Obligations.DecodeOfEncodeIsInstr : Prop :=
  ∀ i : Instr, i.wellFormed = true → decode (encode i) = .ok i

/-- 30_encoding R74, R76, R77: a word the decoder accepts is the word of the command it reads, so no bit of a legal word is free. -/
def Obligations.EncodeOfDecodeIsWord : Prop :=
  ∀ (c : Word) (i : Instr), decode c = .ok i → i.wellFormed = true ∧ encode i = c

/-- 30_encoding R74, R76: the decoder accepts exactly the words some row of the mask table admits. -/
def Obligations.DecodeAcceptsMaskTable : Prop :=
  ∀ c : Word, (∃ i, decode c = .ok i) ↔ legal c = true

/-- 30_encoding R76: there are 206848 legal words. -/
def Obligations.LegalWordCount : Prop :=
  Set.ncard {c : Word | ∃ i, decode c = .ok i} = 206848

/-- 30_encoding R80: the words of the table of assembler examples. -/
def Obligations.AssemblerExamplesDecode : Prop :=
  decode 0x00010021 = .ok (.modred 2 0 1)
    ∧ decode 0x00021032 = .ok (.modmul 3 0 1 2)
    ∧ decode 0x00021033 = .ok (.modexp 3 0 1 2 false)
    ∧ decode 0x10021033 = .ok (.modexp 3 0 1 2 true)
    ∧ decode 0x04301024 = .ok (.xgcd 2 3 4 0 1)
    ∧ decode 0x00010025 = .ok (.modinv 2 0 1)
    ∧ decode 0x05421036 = .ok (.lincon 3 4 5 0 1 2)

/-- 30_encoding R77: every listed kind of word is illegal; an illegal word is accepted like any other and completes in ERROR with
E_ILLCMD, writing no register. -/
def Obligations.IllegalWordsAreErrors : Prop :=
  (∀ c : Word,
      (c = 0 ∨ c = 0xFFFFFFFF ∨ fieldOP c = 0 ∨ 7 ≤ fieldOP c ∨ fieldRES c ≠ 0 ∨ (fieldCHK c = 1 ∧ fieldOP c ≠ 3)
        ∨ 8 ≤ fieldRD c ∨ 8 ≤ fieldRA c ∨ 8 ≤ fieldRB c ∨ 8 ≤ fieldRM c ∨ 8 ≤ fieldRX c ∨ 8 ≤ fieldRY c
        ∨ (fieldRB c ≠ 0 ∧ (fieldOP c = 1 ∨ fieldOP c = 5))
        ∨ (fieldRM c ≠ 0 ∧ fieldOP c = 4)
        ∨ ((fieldRX c ≠ 0 ∨ fieldRY c ≠ 0) ∧ fieldOP c ≠ 4 ∧ fieldOP c ≠ 6)) →
      ∃ e, decode c = .error e)
    ∧ ∀ (s : State) (c : Word) (e : Illegal), decode c = .error e → (s.phase = .idle ∨ s.phase = .done) →
        (s.hostWrite 3 c).phase = .busy ∧ (s.hostWrite 3 c).cmd = c
          ∧ ∃ t, (s.hostWrite 3 c).complete = .next t ∧ EndsError (s.hostWrite 3 c) t .illcmd
              ∧ ∀ r, t.readReg r = s.readReg r

/-! ### The pure functions -/

/-- 00_scope R13, R14, R15: `red` is the residue, `mulmod` the residue of the exact product for even and odd moduli, and `bitlen` is the
least `k` with `n < 2^k`. -/
def Obligations.HelperFunctionsAreExact : Prop :=
  (∀ v m : Nat, 1 ≤ m → red v m < m ∧ ∃ q, v = q * m + red v m)
    ∧ (∀ a b m : Nat, 1 ≤ m → mulmod a b m < m ∧ ∃ q, a * b = q * m + mulmod a b m)
    ∧ ∀ n k : Nat, bitlen n ≤ k ↔ n < 2 ^ k

/-- 40 R94: the laws of `mulmod`. -/
def Obligations.MulmodLaws : Prop :=
  ∀ m : Nat, 1 ≤ m →
    (∀ a b, mulmod a b m = mulmod b a m)
      ∧ (∀ a b c, mulmod (mulmod a b m) c m = mulmod a (mulmod b c m) m)
      ∧ (∀ a, mulmod a 1 m = a % m)
      ∧ (∀ a b, mulmod a b 1 = 0)
      ∧ ∀ a b, mulmod a b m = red (a * b) m

/-- 41 R102: `modpow` is the integer power reduced, with its seven consequences. -/
def Obligations.ModpowIsPower : Prop :=
  ∀ b e m : Nat, 1 ≤ m →
    modpow b e m = b ^ e % m
      ∧ modpow b e 1 = 0
      ∧ (2 ≤ m → modpow b 0 m = 1)
      ∧ (1 ≤ e → modpow 0 e m = 0)
      ∧ modpow b 1 m = b % m
      ∧ modpow b e m = modpow (b % m) e m
      ∧ (∀ e1 e2, modpow b (e1 + e2) m = mulmod (modpow b e1 m) (modpow b e2 m) m)
      ∧ modpowLsb b e m = modpow b e m

/-- 42 R110: `xgcd` is the loop that runs the pass while the remainder is not 0, and returns the old row. -/
def Obligations.XgcdIsEuclidLoop : Prop :=
  ∀ a b : Nat, ∃ k, k ≤ b + 1 ∧ (euclidRows a b k).r = 0 ∧ (∀ j, j < k → (euclidRows a b j).r ≠ 0)
    ∧ xgcd a b = ((euclidRows a b k).oldR, (euclidRows a b k).oldS, (euclidRows a b k).oldT)

/-- 42 R112: the six properties of `xgcd`. -/
def Obligations.XgcdProperties : Prop :=
  ∀ a b : Nat,
    (∀ k, (∀ j, j < k → (euclidRows a b j).r ≠ 0) →
        (a : Int) * (euclidRows a b k).oldS + b * (euclidRows a b k).oldT = (euclidRows a b k).oldR
          ∧ (a : Int) * (euclidRows a b k).s + b * (euclidRows a b k).t = (euclidRows a b k).r)
      ∧ (a : Int) * (xgcd a b).2.1 + b * (xgcd a b).2.2 = (xgcd a b).1
      ∧ (xgcd a b).1 = Nat.gcd a b
      ∧ ((xgcd a b).1 = 0 ↔ a = 0 ∧ b = 0)
      ∧ (xgcd a b).1 ≤ max a b
      ∧ (∀ k, (euclidRows a b k).r ≠ 0 → (euclidRows a b (k + 1)).r < (euclidRows a b k).r
          ∧ (euclidRows a b (k + 1)).r = (euclidRows a b k).oldR % (euclidRows a b k).r)
      ∧ xgcd a 0 = (a, 1, 0)
      ∧ (0 < b → xgcd 0 b = (b, 0, 1))
      ∧ xgcd 0 0 = (0, 1, 0)
      ∧ (0 < a → a < b → xgcd a b = ((xgcd b a).1, (xgcd b a).2.2, (xgcd b a).2.1))
      ∧ (0 < a → xgcd a a = (a, 0, 1))
      ∧ xgcd a 1 = (1, 0, 1)
      ∧ (b ≠ 1 → xgcd 1 b = (1, 1, 0))

/-- 42 R113: the size and the signs of the coefficients, returned and intermediate. -/
def Obligations.BezoutCoefficientBounds : Prop :=
  ∀ a b : Nat, 0 < (xgcd a b).1 →
    (xgcd a b).2.1.natAbs ≤ max 1 (b / (2 * (xgcd a b).1))
      ∧ (xgcd a b).2.2.natAbs ≤ max 1 (a / (2 * (xgcd a b).1))
      ∧ (xgcd a b).2.1 * (xgcd a b).2.2 ≤ 0
      ∧ (∀ k, (∀ j, j < k → (euclidRows a b j).r ≠ 0) →
          (euclidRows a b k).oldS.natAbs ≤ max 1 (b / (xgcd a b).1)
            ∧ (euclidRows a b k).s.natAbs ≤ max 1 (b / (xgcd a b).1)
            ∧ (euclidRows a b k).oldT.natAbs ≤ max 1 (a / (xgcd a b).1)
            ∧ (euclidRows a b k).t.natAbs ≤ max 1 (a / (xgcd a b).1)
            ∧ ((euclidRows a b k).r = 0 →
                (euclidRows a b k).s.natAbs = b / (xgcd a b).1 ∧ (euclidRows a b k).t.natAbs = a / (xgcd a b).1
                  ∧ (euclidRows a b k).s * (euclidRows a b k).t ≤ 0))
      ∧ ∀ L, 1 ≤ L → a < 2 ^ (32 * L) → b < 2 ^ (32 * L) →
          (xgcd a b).2.1.natAbs < 2 ^ (32 * L) ∧ (xgcd a b).2.2.natAbs < 2 ^ (32 * L)

/-- 43 R122: the eight properties of `modinv` (`none` is NoInverse). -/
def Obligations.ModinvProperties : Prop :=
  ∀ a m : Nat, 1 ≤ m →
    Nat.gcd (red a m) m = Nat.gcd a m
      ∧ (modinv a m = none ↔ Nat.gcd a m ≠ 1)
      ∧ (∀ v, modinv a m = some v → v < m ∧ mulmod a v m = red 1 m
          ∧ ∀ u, u < m → mulmod a u m = red 1 m → u = v)
      ∧ modinv a 1 = some 0
      ∧ (1 < m → a % m = 0 → Nat.gcd a m = m ∧ modinv a m = none)
      ∧ modinv 1 m = some (red 1 m)
      ∧ (2 ≤ m → modinv (m - 1) m = some (m - 1))
      ∧ (∀ v, modinv a m = some v → modinv v m = some (red a m))
      ∧ modinv 17 3120 = some 2753

/-- 43 R126: the seven properties of `lincon` (`none` is Empty). -/
def Obligations.LinconProperties : Prop :=
  ∀ a b m : Nat, 1 ≤ m →
    (lincon a b m = none ↔ ¬ Nat.gcd a m ∣ b)
      ∧ (∀ z0 n p, lincon a b m = some (z0, n, p) →
          z0 < p ∧ n * p = m ∧ (∀ k, k < n → z0 + k * p < m)
            ∧ (∀ z, z < m → (mulmod a z m = red b m ↔ ∃ k, k < n ∧ z = z0 + k * p)))
      ∧ (Nat.gcd a m = 1 → ∃ v, modinv a m = some v ∧ lincon a b m = some (mulmod b v m, 1, m)
          ∧ lincon a 1 m = some (v, 1, m))
      ∧ (a % m = 0 → (b % m ≠ 0 → lincon a b m = none) ∧ (b % m = 0 → lincon a b m = some (0, m, 1)))
      ∧ lincon a b 1 = some (0, 1, 1)
      ∧ (b % m = 0 → ∃ n p, lincon a b m = some (0, n, p))
      ∧ (∀ z0 n p, lincon a b m = some (z0, n, p) → z0 < p ∧ p ≤ m ∧ n ≤ m
          ∧ ∀ W, m < 2 ^ W → z0 < 2 ^ W ∧ n < 2 ^ W ∧ p < 2 ^ W)

/-! ### The commands: result, frame and completion -/

/-- 40 R90: MODRED with a modulus that is not 0 completes in DONE with the residue; nothing else changes. Destination and sources may be
any registers. -/
def Obligations.ModredCompletes : Prop :=
  ∀ (rd ra rm : RegId) (s : State), s.readReg rm ≠ 0 →
    ∃ t, exec (.modred rd ra rm) s = .next t ∧ t.readReg rd = s.readReg ra % s.readReg rm
      ∧ EndsDone s t false false false [rd]

/-- 40 R93: MODMUL with a modulus that is not 0 completes in DONE with the residue of the exact product; nothing else changes. -/
def Obligations.ModmulCompletes : Prop :=
  ∀ (rd ra rb rm : RegId) (s : State), s.readReg rm ≠ 0 →
    ∃ t, exec (.modmul rd ra rb rm) s = .next t
      ∧ t.readReg rd = s.readReg ra * s.readReg rb % s.readReg rm ∧ EndsDone s t false false false [rd]

/-- 41 R101, R102: MODEXP with a modulus that is not 0, and with CHK a base below it, completes in DONE with the integer power reduced;
nothing else changes. -/
def Obligations.ModexpCompletes : Prop :=
  ∀ (rd ra rb rm : RegId) (chk : Bool) (s : State), s.readReg rm ≠ 0 →
    (chk = true → s.readReg ra < s.readReg rm) →
    ∃ t, exec (.modexp rd ra rb rm chk) s = .next t
      ∧ t.readReg rd = s.readReg ra ^ s.readReg rb % s.readReg rm ∧ EndsDone s t false false false [rd]

/-- 42 R111: XGCD with distinct destinations always completes in DONE: the gcd, and the coefficients of the iteration by sign and
magnitude, which satisfy the Bezout relation; no negative zero; nothing else changes. -/
def Obligations.XgcdCompletes : Prop :=
  ∀ (rd rx ry ra rb : RegId) (s : State), distinctDests rd rx ry = true →
    ∃ t, exec (.xgcd rd rx ry ra rb) s = .next t
      ∧ t.readReg rd = Nat.gcd (s.readReg ra) (s.readReg rb)
      ∧ signedValue t.sx (t.readReg rx) = (xgcd (s.readReg ra) (s.readReg rb)).2.1
      ∧ signedValue t.sy (t.readReg ry) = (xgcd (s.readReg ra) (s.readReg rb)).2.2
      ∧ (s.readReg ra : Int) * signedValue t.sx (t.readReg rx) + s.readReg rb * signedValue t.sy (t.readReg ry)
          = t.readReg rd
      ∧ (t.readReg rx = 0 → t.sx = false) ∧ (t.readReg ry = 0 → t.sy = false)
      ∧ EndsDone s t t.sx t.sy false [rd, rx, ry]

/-- 43 R121, R122: MODINV with a modulus that is not 0 and coprime to the value completes in DONE with the one inverse in `[0, m)`; nothing
else changes. -/
def Obligations.ModinvCompletes : Prop :=
  ∀ (rd ra rm : RegId) (s : State), s.readReg rm ≠ 0 → Nat.gcd (s.readReg ra) (s.readReg rm) = 1 →
    ∃ t, exec (.modinv rd ra rm) s = .next t
      ∧ t.readReg rd < s.readReg rm
      ∧ s.readReg ra * t.readReg rd % s.readReg rm = 1 % s.readReg rm
      ∧ (∀ v, v < s.readReg rm → s.readReg ra * v % s.readReg rm = 1 % s.readReg rm → v = t.readReg rd)
      ∧ EndsDone s t false false false [rd]

/-- 43 R125, R126: LINCON with distinct destinations and a modulus that is not 0 completes in DONE. If the gcd divides the right-hand side
the three registers describe exactly the solutions in `[0, m)`, else they are 0 and EMPTY is set, which says the count is 0; nothing else changes. -/
def Obligations.LinconCompletes : Prop :=
  ∀ (rd rx ry ra rb rm : RegId) (s : State), distinctDests rd rx ry = true → s.readReg rm ≠ 0 →
    ∃ t, exec (.lincon rd rx ry ra rb rm) s = .next t
      ∧ EndsDone s t false false (decide (¬ Nat.gcd (s.readReg ra) (s.readReg rm) ∣ s.readReg rb)) [rd, rx, ry]
      ∧ (Nat.gcd (s.readReg ra) (s.readReg rm) ∣ s.readReg rb →
          t.readReg rx = Nat.gcd (s.readReg ra) (s.readReg rm)
            ∧ t.readReg ry = s.readReg rm / Nat.gcd (s.readReg ra) (s.readReg rm)
            ∧ t.readReg rd < t.readReg ry
            ∧ ∀ z, z < s.readReg rm →
                (s.readReg ra * z % s.readReg rm = s.readReg rb % s.readReg rm
                  ↔ ∃ k, k < t.readReg rx ∧ z = t.readReg rd + k * t.readReg ry))
      ∧ (¬ Nat.gcd (s.readReg ra) (s.readReg rm) ∣ s.readReg rb →
          t.readReg rd = 0 ∧ t.readReg rx = 0 ∧ t.readReg ry = 0)
      ∧ (t.empty = true ↔ t.readReg rx = 0)

/-! ### The errors -/

/-- 60_exceptions R131: the completion step (whose step it is in BUSY is the model's schedule, log 3). An illegal word is E_ILLCMD, a legal
one is executed; an error writes no register; otherwise exactly the command's writes and flags take effect; CMD, WRDROP, IE never change;
the engine moves only in BUSY, and there whenever the schedule does not give the step to a host that has something to do. -/
def Obligations.CompletionCommitsOutcome : Prop :=
  ∀ s : State,
    (s.engineMoves = true ↔ s.phase = .busy ∧ s.rst = false ∧ (s.host = [] ∨ s.turns.head? ≠ some .host))
      ∧ (∀ e, outcomeOf s.cmd s.readReg = .error e → ∃ t, s.complete = .next t ∧ EndsError s t e)
      ∧ (∀ c, outcomeOf s.cmd s.readReg = .ok c →
          ∃ t, s.complete = .next t ∧ (∀ r v, (r, v) ∈ c.writes → t.readReg r = v)
            ∧ EndsDone s t c.sx c.sy c.empty (c.writes.map Prod.fst))

/-- 60_exceptions R132: the completion of a word is E_ILLCMD iff the word is illegal, whatever the registers hold. -/
def Obligations.IllcmdIffIllegal : Prop :=
  ∀ (c : Word) (x : RegId → Nat), outcomeOf c x = .error .illcmd ↔ ∃ e, decode c = .error e

/-- 60_exceptions R133: E_MODZERO iff the command has a modulus register and it holds 0; `xgcd` never raises it. -/
def Obligations.ModzeroIffModulusZero : Prop :=
  (∀ (c : Word) (x : RegId → Nat),
      outcomeOf c x = .error .modzero ↔ ∃ i rm, decode c = .ok i ∧ modulusOf i = some rm ∧ x rm = 0)
    ∧ ∀ s : State, outcomeOf s.cmd s.readReg = .error .modzero →
        ∃ t, s.complete = .next t ∧ EndsError s t .modzero

/-- 60_exceptions R135, 41 R103: E_RANGE iff `modexp` with CHK, a modulus that is not 0, and a base at or above it; without CHK never. -/
def Obligations.RangeIffBaseTooLarge : Prop :=
  (∀ (c : Word) (x : RegId → Nat),
      outcomeOf c x = .error .range
        ↔ ∃ rd ra rb rm, decode c = .ok (.modexp rd ra rb rm true) ∧ x rm ≠ 0 ∧ x rm ≤ x ra)
    ∧ ∀ s : State, outcomeOf s.cmd s.readReg = .error .range →
        ∃ t, s.complete = .next t ∧ EndsError s t .range

/-- 41 R103: CHK is exactly the check that the base is below the modulus: where it holds, and where the modulus is 0, CHK changes nothing;
where it fails, E_RANGE; without CHK a larger base is reduced. -/
def Obligations.ChkOnlyChecksBase : Prop :=
  ∀ (rd ra rb rm : RegId) (s : State),
    ((s.readReg rm = 0 ∨ s.readReg ra < s.readReg rm) →
        exec (.modexp rd ra rb rm true) s = exec (.modexp rd ra rb rm false) s)
      ∧ (s.readReg rm ≠ 0 → s.readReg rm ≤ s.readReg ra →
          ∃ t, exec (.modexp rd ra rb rm true) s = .next t ∧ EndsError s t .range)
      ∧ (s.readReg rm ≠ 0 →
          ∃ t, exec (.modexp rd ra rb rm false) s = .next t
            ∧ t.readReg rd = (s.readReg ra % s.readReg rm) ^ s.readReg rb % s.readReg rm
            ∧ t.readReg rd = s.readReg ra ^ s.readReg rb % s.readReg rm ∧ EndsDone s t false false false [rd])

/-- 60_exceptions R134: E_NOINV iff `modinv` with a modulus that is not 0 and not coprime to the value; `lincon` never raises it. -/
def Obligations.NoinvIffNotCoprime : Prop :=
  (∀ (c : Word) (x : RegId → Nat),
      outcomeOf c x = .error .noinv
        ↔ ∃ rd ra rm, decode c = .ok (.modinv rd ra rm) ∧ x rm ≠ 0 ∧ Nat.gcd (x ra) (x rm) ≠ 1)
    ∧ ∀ s : State, outcomeOf s.cmd s.readReg = .error .noinv →
        ∃ t, s.complete = .next t ∧ EndsError s t .noinv

/-- 60_exceptions R136: the first error that applies is the one reported: an illegal word before anything, a zero modulus before the range and
the inverse. -/
def Obligations.ErrorPriority : Prop :=
  (∀ (c : Word) (x : RegId → Nat) (e : Illegal), decode c = .error e → outcomeOf c x = .error .illcmd)
    ∧ (∀ (rd ra rb rm : RegId) (chk : Bool) (x : RegId → Nat), x rm = 0 →
        resultOf (.modexp rd ra rb rm chk) x = .error .modzero)
    ∧ (∀ (rd ra rm : RegId) (x : RegId → Nat), x rm = 0 → resultOf (.modinv rd ra rm) x = .error .modzero)
    ∧ ∀ (i : Instr) (x : RegId → Nat), ¬ (resultOf i x = .error .range ∧ ∃ y, resultOf i y = .error .noinv)

/-- 00_scope R9: a command is a function of the register file: two states with equal registers get equal registers, phase and flags, and
on an error equal codes. -/
def Obligations.CommandIsPure : Prop :=
  ∀ (i : Instr) (s s' t t' : State), (∀ r, s.readReg r = s'.readReg r) →
    exec i s = .next t → exec i s' = .next t' →
    (∀ r, t.readReg r = t'.readReg r) ∧ t.phase = t'.phase ∧ t.sx = t'.sx ∧ t.sy = t'.sy ∧ t.empty = t'.empty
      ∧ (t.phase = .error → t.errcode = t'.errcode)

/-- 00_scope R16, 10_state R22, 60_exceptions R131: a command writes only its destination registers, whichever of them are also sources,
and one whose result is an error writes none and enters ERROR with the code. -/
def Obligations.CommandWritesOnlyDestinations : Prop :=
  (∀ (i : Instr) (s t : State), exec i s = .next t →
      (∀ r, r ∉ destsOf i → t.readReg r = s.readReg r) ∧ SameRest s t)
    ∧ ∀ (i : Instr) (s : State) (e : MauError), resultOf i s.readReg = .error e →
        ∃ t, exec i s = .next t ∧ EndsError s t e

/-! ### The host's register interface -/

/-- 10_state R33: a write to CMD is accepted in IDLE and DONE whatever the word, dropped in BUSY and ERROR. -/
def Obligations.CmdWriteAcceptance : Prop :=
  ∀ (s : State) (v : Word),
    ((s.phase = .idle ∨ s.phase = .done) →
        s.hostWrite 3 v
          = { s with cmd := v, phase := .busy, errcode := 0, sx := false, sy := false, empty := false })
      ∧ ((s.phase = .busy ∨ s.phase = .error) → s.hostWrite 3 v = { s with wrdrop := true })
      ∧ ((s.phase = .idle ∨ s.phase = .done) → ∀ e, decode v = .error e →
          ∃ t, (s.hostWrite 3 v).complete = .next t ∧ t.phase = .error ∧ t.errcode = 1)

/-- 10_state R37, 00_scope R5: CAP; no step changes the parameter it reports. -/
def Obligations.CapWordFields : Prop :=
  (∀ s : State, s.limbs < 2 ^ 16 →
      slice (s.hostRead 0).toNat 15 0 = s.limbs ∧ slice (s.hostRead 0).toNat 19 16 = 8
        ∧ slice (s.hostRead 0).toNat 31 20 = 0)
    ∧ (∀ (s : State) (v : Word), s.hostWrite 0 v = { s with wrdrop := true })
    ∧ (∀ s t : State, step s = .next t → t.limbs = s.limbs ∧ t.hostRead 0 = s.hostRead 0)
    ∧ (State.resetAt 16).hostRead 0 = 0x00080010

/-- 10_state R38: CTRL. -/
def Obligations.CtrlReadWrite : Prop :=
  ∀ (s : State) (v : Word),
    s.hostRead 1 = BitVec.ofNat 32 s.ie.toNat
      ∧ (v.getLsbD 2 = true → s.hostWrite 1 v = s.resetAction)
      ∧ (v.getLsbD 2 = false → v.getLsbD 1 = true → s.hostWrite 1 v = { s with ie := v.getLsbD 0 }.acknowledge)
      ∧ (v.getLsbD 2 = false → v.getLsbD 1 = false → s.hostWrite 1 v = { s with ie := v.getLsbD 0 })
      ∧ ((s.hostWrite 1 v).wrdrop = true → s.wrdrop = true)

/-- 10_state R39: STATUS, bit by bit; a write is dropped; at most one of BUSY, DONE, ERR, and none exactly in IDLE. -/
def Obligations.StatusWordFields : Prop :=
  ∀ s : State,
    s.hostRead 2 = s.statusWord
      ∧ (s.statusWord.getLsbD 0 = true ↔ s.phase = .busy)
      ∧ (s.statusWord.getLsbD 1 = true ↔ s.phase = .done)
      ∧ (s.statusWord.getLsbD 2 = true ↔ s.phase = .error)
      ∧ s.statusWord.getLsbD 3 = s.wrdrop
      ∧ slice s.statusWord.toNat 7 4 = s.errcode.toNat
      ∧ s.statusWord.getLsbD 8 = s.sx
      ∧ s.statusWord.getLsbD 9 = s.sy
      ∧ s.statusWord.getLsbD 10 = s.empty
      ∧ slice s.statusWord.toNat 31 11 = 0
      ∧ (slice s.statusWord.toNat 2 0 = 0 ↔ s.phase = .idle)
      ∧ ∀ v, s.hostWrite 2 v = { s with wrdrop := true }

/-- 10_state R40, 20_memory R63: CMD reads as the last accepted word; a step changes it only by an accepted CMD write or by reset. -/
def Obligations.CmdHoldsLastAccepted : Prop :=
  (∀ s : State, s.hostRead 3 = s.cmd)
    ∧ State.reset.hostRead 3 = 0
    ∧ (∀ (s : State) (v : Word), (s.hostWrite 3 v).cmd = if s.phase = .idle ∨ s.phase = .done then v else s.cmd)
    ∧ ∀ s t : State, step s = .next t → t.cmd ≠ s.cmd →
        (HostWrites s 3 t.cmd ∧ (s.phase = .idle ∨ s.phase = .done)) ∨ (StepResets s ∧ t.cmd = 0)

/-- 10_state R41, 60_exceptions R137: the level of `irq`, and what raises and lowers it. -/
def Obligations.IrqRisesAndFalls : Prop :=
  (∀ s : State, s.irq = true ↔ s.ie = true ∧ (s.phase = .done ∨ s.phase = .error))
    ∧ State.reset.irq = false
    ∧ (∀ s : State, s.acknowledge.irq = false)
    ∧ (∀ s : State, s.resetAction.irq = false)
    ∧ (∀ (s : State) (v : Word), s.phase = .done → (s.hostWrite 3 v).irq = false)
    ∧ (∀ (s : State) (v : Word), v.getLsbD 0 = false → (s.hostWrite 1 v).irq = false)
    ∧ (∀ s : State, s.phase = .done ∨ s.phase = .error → (s.hostWrite 1 1).irq = true)
    ∧ ∀ (i : Instr) (s t : State), exec i s = .next t → t.irq = s.ie

/-- 20_memory R56: what a host read returns at every word index, in any phase, and that it changes nothing of the unit. Who moves, what the
host has still to do and what it has read are the model's fields (log 2, 3, 4). -/
def Obligations.HostReadValues : Prop :=
  (∀ (s : State) (k : Nat),
      (k = 0 → s.hostRead k = capWord s.limbs)
        ∧ (k = 1 → s.hostRead k = BitVec.ofNat 32 s.ie.toNat)
        ∧ (k = 2 → s.hostRead k = s.statusWord)
        ∧ (k = 3 → s.hostRead k = s.cmd)
        ∧ (4 ≤ k → k ≤ 63 → s.hostRead k = 0)
        ∧ (64 ≤ k → ∀ h : (k - 64) / s.limbs < 8, k < 64 + 8 * s.limbs →
            s.hostRead k = limbOf (s.readReg ⟨(k - 64) / s.limbs, h⟩) ((k - 64) % s.limbs))
        ∧ (64 + 8 * s.limbs ≤ k → s.hostRead k = 0))
    ∧ (∀ (s : State) (k : Nat), 64 ≤ k → k < 64 + 8 * s.limbs → (k - 64) / s.limbs < 8)
    ∧ ∀ (s : State) (k : Nat) (rest : List HostAct), s.engineMoves = false → s.rst = false →
        s.host = .read k :: rest →
        step s = .next { s.takeTurn with returned := s.returned ++ [s.hostRead k], host := rest }

/-- 20_memory R57: what a host write does at every word index; only CTRL and CMD can change PHASE; and the step of a host write performs it.
Who moves and what the host has still to do are the model's fields (log 2, 3). -/
def Obligations.HostWriteDispatch : Prop :=
  (∀ (s : State) (k : Nat) (v : Word),
      (k = 0 → s.hostWrite k v = s.drop)
        ∧ (k = 1 → s.hostWrite k v = s.writeCtrl v)
        ∧ (k = 2 → s.hostWrite k v = s.drop)
        ∧ (k = 3 → s.hostWrite k v = s.writeCmd v)
        ∧ (4 ≤ k → k ≤ 63 → s.hostWrite k v = s.drop)
        ∧ (64 ≤ k → ∀ h : (k - 64) / s.limbs < 8, k < 64 + 8 * s.limbs →
            s.hostWrite k v = s.writeLimb ⟨(k - 64) / s.limbs, h⟩ ((k - 64) % s.limbs) v)
        ∧ (64 + 8 * s.limbs ≤ k → s.hostWrite k v = s.drop)
        ∧ (k ≠ 1 → k ≠ 3 → (s.hostWrite k v).phase = s.phase))
    ∧ (∀ (s : State) (k : Nat), 64 ≤ k → k < 64 + 8 * s.limbs → (k - 64) / s.limbs < 8)
    ∧ ∀ (s : State) (k : Nat) (v : Word) (rest : List HostAct), s.engineMoves = false → s.rst = false →
        s.host = .write k v :: rest → step s = .next ({ s.takeTurn with host := rest }.hostWrite k v)

/-- 20_memory R58, 10_state R22: an operand write replaces one limb whole, leaves the other limbs, the other registers and everything else,
keeps the register below `2^W`; in BUSY it is dropped. -/
def Obligations.OperandWriteReplacesLimb : Prop :=
  ∀ (s : State) (i : RegId) (j : Nat) (v : Word), j < s.limbs →
    (s.phase = .busy → s.hostWrite (limbIndex s.limbs i j) v = { s with wrdrop := true })
      ∧ (s.phase ≠ .busy →
          ∃ w, s.hostWrite (limbIndex s.limbs i j) v = s.writeReg i w
            ∧ limbOf w j = v ∧ (∀ n, n ≠ j → limbOf w n = limbOf (s.readReg i) n)
            ∧ (s.readReg i < 2 ^ (32 * s.limbs) → w < 2 ^ (32 * s.limbs)))

/-- 20_memory R53: a reserved index reads 0 and drops writes. -/
def Obligations.ReservedIndices : Prop :=
  ∀ (s : State) (k : Nat) (v : Word), (4 ≤ k ∧ k ≤ 63) ∨ 64 + 8 * s.limbs ≤ k →
    s.hostRead k = 0 ∧ s.hostWrite k v = { s with wrdrop := true }

/-- 20_memory R54: a register below `2^W` is the sum of its limbs, limb 0 least significant; bytes of a word little-endian. -/
def Obligations.RegisterIsSumOfLimbs : Prop :=
  (∀ (s : State) (i : RegId), s.readReg i < 2 ^ (32 * s.limbs) →
      s.readReg i = sumLimbs (s.readReg i) s.limbs
        ∧ ∀ j, j < s.limbs → s.hostRead (limbIndex s.limbs i j) = limbOf (s.readReg i) j)
    ∧ (∀ w : Word, w.toNat = (byteOf w 0).toNat + 2 ^ 8 * (byteOf w 1).toNat + 2 ^ 16 * (byteOf w 2).toNat
        + 2 ^ 24 * (byteOf w 3).toNat)
    ∧ ∀ base k n k' n' : Nat, n < 4 → n' < 4 → byteAddress base k n = byteAddress base k' n' → k = k' ∧ n = n'

/-- 20_memory R59: the complete list of dropped writes; a write off the list does not set WRDROP. -/
def Obligations.DroppedWritesAreExactlyThese : Prop :=
  ∀ (s : State) (k : Nat) (v : Word),
    ((k = 0 ∨ k = 2 ∨ (4 ≤ k ∧ k ≤ 63) ∨ 64 + 8 * s.limbs ≤ k
        ∨ (k = 3 ∧ (s.phase = .busy ∨ s.phase = .error))
        ∨ (64 ≤ k ∧ k < 64 + 8 * s.limbs ∧ s.phase = .busy)) →
      s.hostWrite k v = { s with wrdrop := true })
    ∧ (¬(k = 0 ∨ k = 2 ∨ (4 ≤ k ∧ k ≤ 63) ∨ 64 + 8 * s.limbs ≤ k
        ∨ (k = 3 ∧ (s.phase = .busy ∨ s.phase = .error))
        ∨ (64 ≤ k ∧ k < 64 + 8 * s.limbs ∧ s.phase = .busy)) →
      (s.hostWrite k v).wrdrop = true → s.wrdrop = true)

/-- 10_state R35: WRDROP is sticky: a step clears it only by a CTRL write with CLR or SRST, or by `rst`; no command reads or writes it; it does
not affect `irq`. The host's writes are the model's queue (log 2). -/
def Obligations.WrdropIsSticky : Prop :=
  (∀ s t : State, step s = .next t → s.wrdrop = true → t.wrdrop = false → StepAcknowledges s ∨ StepResets s)
    ∧ (∀ (i : Instr) (s t : State), exec i s = .next t →
        t.wrdrop = s.wrdrop ∧ ∀ d, exec i { s with wrdrop := d } = .next { t with wrdrop := d })
    ∧ (∀ (s : State) (d : Bool), { s with wrdrop := d }.irq = s.irq)
    ∧ ∀ s : State, s.drop.wrdrop = true

/-- 60_exceptions R141: acknowledge. -/
def Obligations.AcknowledgeEffect : Prop :=
  ∀ (s : State) (v : Word), v.getLsbD 1 = true → v.getLsbD 2 = false →
    ((s.phase = .done ∨ s.phase = .error) →
        s.hostWrite 1 v
          = { s with ie := v.getLsbD 0, wrdrop := false, phase := .idle, errcode := 0, sx := false, sy := false, empty := false })
      ∧ ((s.phase = .idle ∨ s.phase = .busy) → s.hostWrite 1 v = { s with ie := v.getLsbD 0, wrdrop := false })

/-! ### Reset -/

/-- 10_state R45: the reset values, after hard and soft reset, and what reads then return. -/
def Obligations.ResetValues : Prop :=
  (∀ L, (State.resetAt L).AtReset ∧ (State.resetAt L).limbs = L)
    ∧ (∀ s : State, s.resetAction.AtReset ∧ (s.driveRst true).AtReset)
    ∧ ∀ s : State, s.AtReset → s.irq = false ∧ s.hostRead 2 = 0 ∧ s.hostRead 1 = 0 ∧ s.hostRead 3 = 0
        ∧ s.hostRead 0 = capWord s.limbs ∧ ∀ k, 4 ≤ k → s.hostRead k = 0

/-- 70 R161: soft reset in every phase; it ignores the other bits, abandons a running command, and leaves no trace of the operands. -/
def Obligations.SoftResetEffect : Prop :=
  (∀ (s : State) (v : Word), v.getLsbD 2 = true →
      (s.hostWrite 1 v).AtReset ∧ (s.hostWrite 1 v).engineMoves = false ∧ (s.hostWrite 1 v).irq = false
        ∧ (s.hostWrite 1 v).hostRead 2 = 0 ∧ (s.hostWrite 1 v).hostRead 3 = 0
        ∧ ∀ k, 64 ≤ k → (s.hostWrite 1 v).hostRead k = 0)
    ∧ ∀ (s s' : State) (v v' : Word), v.getLsbD 2 = true → v'.getLsbD 2 = true →
        s.limbs = s'.limbs → s.rst = s'.rst → s.host = s'.host → s.turns = s'.turns → s.returned = s'.returned →
        s.hostWrite 1 v = s'.hostWrite 1 v'

/-- 70 R160: hard reset. Asserting `rst` gives every register its reset value; while it is asserted no step completes a command and a host
access has no step; after its release the state is at reset. The refusal's form and the level's place in the state are the model's (log 5). -/
def Obligations.HardResetEffect : Prop :=
  (∀ (s : State) (rest : List HostAct) (level : Bool), s.engineMoves = false → s.host = .rst level :: rest →
      (level = true ∨ s.rst = true) → ∃ t, step s = .next t ∧ t.AtReset ∧ t.rst = level ∧ t.host = rest)
    ∧ (∀ s : State, s.rst = true → s.engineMoves = false)
    ∧ ∀ (s : State) (a : HostAct) (rest : List HostAct), s.rst = true → s.host = a :: rest → (∀ l, a ≠ .rst l) →
        step s = .refused .accessDuringReset

/-! ### Steps -/

/-- 60_exceptions R131, 10_state R29: when the engine moves and CMD decodes to `i`, the step is `exec i`, one turn used up. The
turns are the model's schedule (log 3). -/
def Obligations.StepRunsDecoded : Prop :=
  ∀ (s : State) (i : Instr), s.phase = .busy → s.rst = false → (s.host = [] ∨ s.turns.head? ≠ some .host) →
    decode s.cmd = .ok i → step s = exec i { s with turns := s.turns.tail }

/-- 60_exceptions R146, 70 R163: with no command outstanding and no host action the MAU does nothing; the model's step
then answers the same state (log 7). -/
def Obligations.IdleIsQuiescent : Prop :=
  ∀ s : State, s.phase ≠ .busy → s.host = [] → step s = .next s

/-- 60_exceptions R131, R143, 70 R160: the machine never faults, and it is refused a step only for a host access while `rst` is asserted
(log 5, 8). -/
def Obligations.StepNeverStops : Prop :=
  ∀ s : State, (∃ t, step s = .next t)
    ∨ (s.rst = true ∧ step s = .refused .accessDuringReset ∧ ∃ a rest, s.host = a :: rest ∧ ∀ l, a ≠ .rst l)

/-- 10_state R31: every transition of PHASE by a step, with the event that makes it; no other exists (the host's events as the model's queue,
log 2, 5). -/
def Obligations.PhaseTransitions : Prop :=
  ∀ s t : State, step s = .next t → t.phase ≠ s.phase →
    ((s.phase = .idle ∨ s.phase = .done) ∧ t.phase = .busy ∧ ∃ v, HostWrites s 3 v)
      ∨ (s.phase = .busy ∧ (t.phase = .done ∨ t.phase = .error) ∧ s.engineMoves = true)
      ∨ ((s.phase = .done ∨ s.phase = .error) ∧ t.phase = .idle ∧ StepAcknowledges s)
      ∨ (t.phase = .idle ∧ StepResets s)

/-- 60_exceptions R142: errors do not nest: from ERROR a step keeps ERROR with its code or goes to IDLE with code 0. -/
def Obligations.ErrorsDoNotNest : Prop :=
  ∀ s t : State, s.phase = .error → step s = .next t →
    (t.phase = .error ∧ t.errcode = s.errcode ∧ t.cmd = s.cmd) ∨ (t.phase = .idle ∧ t.errcode = 0)

/-- 10_state R22: who writes an operand register: a host operand write outside BUSY, a completion without error of a command that has it as a
destination, or reset. -/
def Obligations.RegisterWriters : Prop :=
  ∀ (s t : State) (r : RegId), step s = .next t → t.readReg r ≠ s.readReg r →
    (s.phase ≠ .busy ∧ ∃ j v, j < s.limbs ∧ HostWrites s (limbIndex s.limbs r j) v)
      ∨ (s.engineMoves = true ∧ t.phase = .done ∧ ∃ i, decode s.cmd = .ok i ∧ r ∈ destsOf i)
      ∨ (StepResets s ∧ t.readReg r = 0)

/-- 10_state R34: a flag is set only by the completion of its command, SX and SY of XGCD with a negative coefficient, EMPTY of LINCON without a
solution. -/
def Obligations.FlagSetters : Prop :=
  ∀ s t : State, step s = .next t →
    (t.sx = true → s.sx = true ∨ (s.engineMoves = true ∧ ∃ rd rx ry ra rb, decode s.cmd = .ok (.xgcd rd rx ry ra rb)
        ∧ (xgcd (s.readReg ra) (s.readReg rb)).2.1 < 0))
      ∧ (t.sy = true → s.sy = true ∨ (s.engineMoves = true ∧ ∃ rd rx ry ra rb, decode s.cmd = .ok (.xgcd rd rx ry ra rb)
        ∧ (xgcd (s.readReg ra) (s.readReg rb)).2.2 < 0))
      ∧ (t.empty = true → s.empty = true ∨ (s.engineMoves = true ∧ ∃ rd rx ry ra rb rm,
          decode s.cmd = .ok (.lincon rd rx ry ra rb rm) ∧ ¬ Nat.gcd (s.readReg ra) (s.readReg rm) ∣ s.readReg rb
          ∧ t.readReg rd = 0 ∧ t.readReg rx = 0 ∧ t.readReg ry = 0))
      ∧ (s.engineMoves = true → ∀ e, outcomeOf s.cmd s.readReg = .error e → t.sx = false ∧ t.sy = false ∧ t.empty = false)

/-- The machine right after reset meets the invariant (10_state R43, R45), at the `L = 16` this model names for `State.reset` (log 1, the
model's choice) and at every `L` of the parameter's range. -/
def Obligations.ResetMeetsInvariant : Prop :=
  State.reset = State.resetAt 16 ∧ State.reset.Inv ∧ ∀ L, 1 ≤ L → L < 2 ^ 16 → (State.resetAt L).Inv

/-- 10_state R43: every step from a state that meets the invariant gives a state that meets it; in particular every result of every command
is below `2^W`, so no command truncates (00_scope R5). -/
def Obligations.StepKeepsInvariant : Prop :=
  ∀ s t : State, s.Inv → step s = .next t → t.Inv

/-- 70 R180, 00_scope R9: an accepted command completes, after at most as many steps as there are turns and one more, with the outcome of its
word on the registers it was accepted with, however the host's accesses fall between. The list of turns is the
model's form of the weak fairness (log 3): every list is finite, and no bound is common to all. -/
def Obligations.AcceptedCommandCompletes : Prop :=
  ∀ s : State, s.phase = .busy → s.rst = false → noReset s.host = true →
    ∃ k t, k ≤ s.turns.length + 1 ∧ Sys2Proof.core.run k s = .next t
      ∧ (∀ e, outcomeOf s.cmd s.readReg = .error e →
          t.phase = .error ∧ t.errcode = e.code ∧ ∀ r, t.readReg r = s.readReg r)
      ∧ (∀ c, outcomeOf s.cmd s.readReg = .ok c →
          t.phase = .done ∧ t.sx = c.sx ∧ t.sy = c.sy ∧ t.empty = c.empty
            ∧ (∀ r v, (r, v) ∈ c.writes → t.readReg r = v)
            ∧ ∀ r, r ∉ c.writes.map Prod.fst → t.readReg r = s.readReg r)

/-! ### Host scripts -/

/-- 30_encoding R81: `ld xi, N` outside BUSY leaves `N` in the register and nothing else changed of the unit. -/
def Obligations.LdLoadsRegister : Prop :=
  ∀ (s : State) (i : RegId) (N : Nat) (rest : List HostAct), s.phase ≠ .busy → s.rst = false →
    s.readReg i < 2 ^ (32 * s.limbs) → N < 2 ^ (32 * s.limbs) → s.host = scriptLd s.limbs i N ++ rest →
    Sys2Proof.core.run s.limbs s = .next { s.writeReg i N with host := rest }

/-- 30_encoding R81, 20_memory R54: `rd xi` outside BUSY returns `L` words whose value is the register's. -/
def Obligations.RdReturnsRegister : Prop :=
  ∀ (s : State) (i : RegId) (rest : List HostAct), s.phase ≠ .busy → s.rst = false →
    s.readReg i < 2 ^ (32 * s.limbs) → s.host = scriptRd s.limbs i ++ rest →
    ∃ ws : List Word, ws.length = s.limbs ∧ valueOfLimbs ws = s.readReg i
      ∧ Sys2Proof.core.run s.limbs s = .next { s with host := rest, returned := s.returned ++ ws }

/-- 70 R164, R180, 30_encoding R81: `run i` and then `wait` from IDLE or DONE end, however many polls see BUSY, with the command's outcome on
the registers and the last word returned the STATUS of that outcome (the queue, the turns and the words returned are the
model's, log 2, 3, 4, 17). -/
def Obligations.RunThenWaitDelivers : Prop :=
  ∀ (s : State) (i : Instr) (rest : List HostAct), i.wellFormed = true → (s.phase = .idle ∨ s.phase = .done) →
    s.rst = false → s.host = scriptRun i ++ scriptWait ++ rest →
    ∃ k t ws, Sys2Proof.core.run k s = .next t ∧ t.host = rest
      ∧ (∀ e, resultOf i s.readReg = .error e →
          t.phase = .error ∧ t.errcode = e.code ∧ ∀ r, t.readReg r = s.readReg r)
      ∧ (∀ c, resultOf i s.readReg = .ok c →
          t.phase = .done ∧ t.sx = c.sx ∧ t.sy = c.sy ∧ t.empty = c.empty
            ∧ (∀ r v, (r, v) ∈ c.writes → t.readReg r = v)
            ∧ ∀ r, r ∉ c.writes.map Prod.fst → t.readReg r = s.readReg r)
      ∧ t.returned = s.returned ++ ws ++ [t.statusWord] ∧ ∀ w ∈ ws, w.getLsbD 0 = true

/-- 30_encoding R81: `clr`, in any phase, is the acknowledge that keeps the current IE; `mov xd, xs` outside BUSY leaves the value of `xs` in
`xd` and hands the host the words of `rd xs`. That the host holds back what it read and what it set is the model's form (log 2, 3, 4, 13). -/
def Obligations.ClrAndMovScripts : Prop :=
  (∀ (s : State) (rest : List HostAct), s.engineMoves = false → s.rst = false → s.host = scriptClr ++ rest →
      step s = .next { s.takeTurn with host := rest }.acknowledge
        ∧ { s.takeTurn with host := rest }.acknowledge.ie = s.ie)
    ∧ ∀ (s : State) (xd xs : RegId) (rest : List HostAct), s.phase ≠ .busy → s.rst = false →
        s.readReg xd < 2 ^ (32 * s.limbs) → s.readReg xs < 2 ^ (32 * s.limbs) →
        s.host = scriptMov s.limbs xd xs ++ rest →
        ∃ ws : List Word, ws.length = s.limbs ∧ valueOfLimbs ws = s.readReg xs
          ∧ Sys2Proof.core.run (2 * s.limbs) s
              = .next { s.writeReg xd (s.readReg xs) with host := rest, returned := s.returned ++ ws }

end
end

