-- ==== Sys2Proof/Laws/Arith.lean ====
section
/-! SUPPORT. The loops of the pure functions (41 R100, 42 R110): what a pass keeps, and the loop as an iteration of rows. -/

namespace Sys2Proof.Machine

theorem mulmod_eq (a b m : Nat) : mulmod a b m = a * b % m := rfl

theorem red_eq (v m : Nat) : red v m = v % m := rfl

/-- `bitlen` bounds its argument (00_scope R15). -/
theorem lt_two_pow_bitlen (n : Nat) : n < 2 ^ bitlen n := by
  unfold bitlen
  split
  · omega
  · exact Nat.lt_log2_self

/-! ### Square and multiply (41 R100) -/

/-- What the remaining `n` passes do to the accumulator: `n` squarings, and the base to the power of the bits still to scan. -/
theorem modpowScan_eq (base e m n acc : Nat) (hacc : acc % m = acc) :
    modpowScan base e m n acc = acc ^ 2 ^ n * base ^ (e % 2 ^ n) % m := by
  induction n generalizing acc with
  | zero => simp [modpowScan, Nat.mod_one, hacc]
  | succ n ih =>
    have hbit : e % 2 ^ (n + 1) = (e.testBit n).toNat * 2 ^ n + e % 2 ^ n := by
      rw [pow_succ, Nat.mod_mul, Nat.toNat_testBit]
      ring
    have step : ∀ x : Nat, x % m = acc * acc * base ^ (e.testBit n).toNat % m →
        x ^ 2 ^ n * base ^ (e % 2 ^ n) % m = acc ^ 2 ^ (n + 1) * base ^ (e % 2 ^ (n + 1)) % m := by
      intro x hx
      have hp : x ^ 2 ^ n ≡ (acc * acc * base ^ (e.testBit n).toNat) ^ 2 ^ n [MOD m] := Nat.ModEq.pow _ hx
      have := hp.mul_right (base ^ (e % 2 ^ n))
      rw [show x ^ 2 ^ n * base ^ (e % 2 ^ n) % m = _ from this, hbit, pow_add base, pow_mul base, pow_succ 2 n,
        mul_comm (2 ^ n) 2, pow_mul acc, pow_two, mul_pow, mul_assoc]
    unfold modpowScan
    cases hb : e.testBit n with
    | true =>
      simp only [if_true]
      rw [ih _ (by simp [mulmod, red])]
      exact step _ (by simp [hb, mulmod, red, Nat.mul_mod])
    | false =>
      simp only [Bool.false_eq_true, if_false]
      rw [ih _ (by simp [mulmod, red])]
      exact step _ (by simp [hb, mulmod, red])

/-! ### The Euclid rows (42 R110) -/

/-- Rows counted from any row. -/
def EuclidRow.passes (e : EuclidRow) : Nat → EuclidRow
  | 0 => e
  | k + 1 => (e.passes k).pass

theorem euclidRows_eq_passes (a b k : Nat) : euclidRows a b k = (EuclidRow.start a b).passes k := by
  induction k with
  | zero => rfl
  | succ k ih => simp [euclidRows, EuclidRow.passes, ih]

theorem EuclidRow.passes_pass (e : EuclidRow) (k : Nat) : e.pass.passes k = e.passes (k + 1) := by
  induction k with
  | zero => rfl
  | succ k ih => simp [EuclidRow.passes, ih]

/-- The new remainder is `old_r mod r` (42 R110). -/
theorem EuclidRow.pass_r (e : EuclidRow) : e.pass.r = e.oldR % e.r := by
  have := Nat.div_add_mod e.oldR e.r
  have h : e.r * (e.oldR / e.r) = e.oldR / e.r * e.r := Nat.mul_comm _ _
  simp only [EuclidRow.pass]
  omega

theorem EuclidRow.pass_r_lt (e : EuclidRow) (h : e.r ≠ 0) : e.pass.r < e.r := by
  rw [e.pass_r]
  exact Nat.mod_lt _ (Nat.pos_of_ne_zero h)

/-- With fuel above the remainder the loop runs to the first row whose remainder is 0, and returns its old values. -/
theorem xgcdLoop_stops (fuel : Nat) (e : EuclidRow) (h : e.r < fuel) :
    ∃ k, k ≤ e.r ∧ (e.passes k).r = 0 ∧ (∀ j, j < k → (e.passes j).r ≠ 0)
      ∧ xgcdLoop fuel e.oldR e.r e.oldS e.s e.oldT e.t = ((e.passes k).oldR, (e.passes k).oldS, (e.passes k).oldT) := by
  induction fuel generalizing e with
  | zero => omega
  | succ fuel ih =>
    by_cases hr : e.r = 0
    · exact ⟨0, by omega, hr, by omega, by simp [xgcdLoop, hr, EuclidRow.passes]⟩
    · have hlt := e.pass_r_lt hr
      obtain ⟨k, hk, h0, hne, heq⟩ := ih e.pass (by omega)
      refine ⟨k + 1, by omega, by rw [← e.passes_pass]; exact h0, ?_, ?_⟩
      · intro j hj
        cases j with
        | zero => exact hr
        | succ j => rw [← e.passes_pass]; exact hne j (by omega)
      · rw [← e.passes_pass, ← heq]
        simp [xgcdLoop, hr, EuclidRow.pass]

/-- What every row keeps: the two linear relations (42 R112 item 1), the gcd, the sizes of the coefficients, and their signs. -/
structure EuclidRow.Good (a b : Nat) (e : EuclidRow) : Prop where
  lin_old : (a : Int) * e.oldS + b * e.oldT = e.oldR
  lin : (a : Int) * e.s + b * e.t = e.r
  gcd : Nat.gcd e.oldR e.r = Nat.gcd a b
  size_s : e.oldR * e.s.natAbs + e.r * e.oldS.natAbs = b
  size_t : e.oldR * e.t.natAbs + e.r * e.oldT.natAbs = a
  sign_s : e.s * e.oldS ≤ 0
  sign_t : e.t * e.oldT ≤ 0
  sign_old : e.oldS * e.oldT ≤ 0
  sign_new : e.s * e.t ≤ 0
  cross : 0 ≤ e.oldS * e.t
  cross' : 0 ≤ e.s * e.oldT

theorem EuclidRow.start_good (a b : Nat) : (EuclidRow.start a b).Good a b where
  lin_old := by simp [EuclidRow.start]
  lin := by simp [EuclidRow.start]
  gcd := rfl
  size_s := by simp [EuclidRow.start]
  size_t := by simp [EuclidRow.start]
  sign_s := by simp [EuclidRow.start]
  sign_t := by simp [EuclidRow.start]
  sign_old := by simp [EuclidRow.start]
  sign_new := by simp [EuclidRow.start]
  cross := by simp [EuclidRow.start]
  cross' := by simp [EuclidRow.start]

/-- Subtracting a multiple of a value of the opposite sign adds the magnitudes. -/
theorem natAbs_sub_mul (x y : Int) (q : Nat) (h : y * x ≤ 0) : (x - q * y).natAbs = x.natAbs + q * y.natAbs := by
  have hq : (0 : Int) ≤ q := Int.natCast_nonneg q
  rcases lt_trichotomy y 0 with hy | hy | hy
  · have hx : 0 ≤ x := by nlinarith
    have : 0 ≤ -(q * y) := by nlinarith
    rw [show x - q * y = x + -(q * y) by ring, Int.natAbs_add_of_nonneg hx this]
    simp [Int.natAbs_mul]
  · simp [hy]
  · have hx : x ≤ 0 := by nlinarith
    have : 0 ≤ q * y := by nlinarith
    rw [show x - q * y = -(-x + q * y) by ring, Int.natAbs_neg, Int.natAbs_add_of_nonneg (by omega) this]
    simp [Int.natAbs_mul]

/-- A pass keeps all of it. -/
theorem EuclidRow.Good.pass {a b : Nat} {e : EuclidRow} (g : e.Good a b) : e.pass.Good a b := by
  have hq := Nat.div_add_mod e.oldR e.r
  have hr := e.pass_r
  have hcast : (e.oldR : Int) = (e.oldR / e.r : Nat) * e.r + (e.oldR % e.r : Nat) := by
    rw [← Int.natCast_mul, ← Int.natCast_add, Nat.mul_comm, hq]
  have hs := natAbs_sub_mul e.oldS e.s (e.oldR / e.r) g.sign_s
  have ht := natAbs_sub_mul e.oldT e.t (e.oldR / e.r) g.sign_t
  have hq0 : (0 : Int) ≤ (e.oldR / e.r : Nat) := Int.natCast_nonneg _
  constructor
  · exact g.lin
  · rw [hr]
    have h1 := g.lin_old
    have h2 := g.lin
    simp only [EuclidRow.pass]
    linear_combination h1 - (e.oldR / e.r : Nat) * h2 + hcast
  · rw [hr, show e.pass.oldR = e.r from rfl, Nat.gcd_comm, ← Nat.gcd_rec, Nat.gcd_comm]
    exact g.gcd
  · rw [hr, show e.pass.oldR = e.r from rfl, show e.pass.s.natAbs = _ from hs, show e.pass.oldS = e.s from rfl]
    have := g.size_s
    rw [← hq] at this
    rw [← this]
    ring
  · rw [hr, show e.pass.oldR = e.r from rfl, show e.pass.t.natAbs = _ from ht, show e.pass.oldT = e.t from rfl]
    have := g.size_t
    rw [← hq] at this
    rw [← this]
    ring
  all_goals simp only [EuclidRow.pass]
  · nlinarith [g.sign_s, mul_nonneg hq0 (mul_self_nonneg e.s)]
  · nlinarith [g.sign_t, mul_nonneg hq0 (mul_self_nonneg e.t)]
  · exact g.sign_new
  · nlinarith [g.sign_old, mul_nonneg hq0 g.cross, mul_nonneg hq0 g.cross',
      mul_nonneg (mul_nonneg hq0 hq0) (neg_nonneg.2 g.sign_new)]
  · nlinarith [g.cross', mul_nonneg hq0 (neg_nonneg.2 g.sign_new)]
  · nlinarith [g.cross, mul_nonneg hq0 (neg_nonneg.2 g.sign_new)]

theorem euclidRows_good (a b k : Nat) : (euclidRows a b k).Good a b := by
  induction k with
  | zero => exact EuclidRow.start_good a b
  | succ k ih => exact ih.pass

end Sys2Proof.Machine
end

