-- ==== Sys2Proof/Laws/Decode.lean ====
section
/-! SUPPORT. The fields of a packed word (30_encoding R70, R71), a word as the packing of its fields, and what an accepted word's fields are. -/

namespace Sys2Proof

/-- The field values of 30_encoding R70: `CHK` one bit, `OP` and the register fields four. -/
structure FieldBounds (chk ry rx rm rb ra rd op : Nat) : Prop where
  chk : chk < 2
  ry : ry < 16
  rx : rx < 16
  rm : rm < 16
  rb : rb < 16
  ra : ra < 16
  rd : rd < 16
  op : op < 16

theorem pack_toNat {chk ry rx rm rb ra rd op : Nat} (h : FieldBounds chk ry rx rm rb ra rd op) :
    (pack chk ry rx rm rb ra rd op).toNat
      = chk * 268435456 + ry * 16777216 + rx * 1048576 + rm * 65536 + rb * 4096 + ra * 256 + rd * 16 + op := by
  obtain ⟨h1, h2, h3, h4, h5, h6, h7, h8⟩ := h
  simp only [pack, BitVec.toNat_ofNat]
  norm_num
  omega

/-- Each field of a packed word is what was packed, and `RES` is 0. -/
theorem pack_fields {chk ry rx rm rb ra rd op : Nat} (h : FieldBounds chk ry rx rm rb ra rd op) :
    fieldOP (pack chk ry rx rm rb ra rd op) = op ∧ fieldRD (pack chk ry rx rm rb ra rd op) = rd
      ∧ fieldRA (pack chk ry rx rm rb ra rd op) = ra ∧ fieldRB (pack chk ry rx rm rb ra rd op) = rb
      ∧ fieldRM (pack chk ry rx rm rb ra rd op) = rm ∧ fieldRX (pack chk ry rx rm rb ra rd op) = rx
      ∧ fieldRY (pack chk ry rx rm rb ra rd op) = ry ∧ fieldCHK (pack chk ry rx rm rb ra rd op) = chk
      ∧ fieldRES (pack chk ry rx rm rb ra rd op) = 0 := by
  have e := pack_toNat h
  obtain ⟨h1, h2, h3, h4, h5, h6, h7, h8⟩ := h
  simp only [fieldOP, fieldRD, fieldRA, fieldRB, fieldRM, fieldRX, fieldRY, fieldCHK, fieldRES, slice, e]
  norm_num
  omega

/-- The fields of any word are in range. -/
theorem field_bounds (c : Word) :
    FieldBounds (fieldCHK c) (fieldRY c) (fieldRX c) (fieldRM c) (fieldRB c) (fieldRA c) (fieldRD c) (fieldOP c) := by
  constructor <;>
    (simp only [fieldOP, fieldRD, fieldRA, fieldRB, fieldRM, fieldRX, fieldRY, fieldCHK, slice]; norm_num; omega)

/-- A word whose `RES` is 0 is the packing of its fields. -/
theorem pack_of_fields (c : Word) (h : fieldRES c = 0) :
    pack (fieldCHK c) (fieldRY c) (fieldRX c) (fieldRM c) (fieldRB c) (fieldRA c) (fieldRD c) (fieldOP c) = c := by
  apply BitVec.eq_of_toNat_eq
  rw [pack_toNat (field_bounds c)]
  have hc := c.isLt
  simp only [fieldOP, fieldRD, fieldRA, fieldRB, fieldRM, fieldRX, fieldRY, fieldCHK, fieldRES, slice] at h ⊢
  norm_num at h ⊢
  omega

theorem regOf_val (r : RegId) : regOf r.val = some r := by
  simp [regOf]

theorem regOf_some {f : Nat} {r : RegId} (h : regOf f = some r) : f = r.val := by
  unfold regOf at h
  split at h
  · injection h with h
    rw [← h]
  · cases h

theorem regOf_none {f : Nat} : regOf f = none ↔ 8 ≤ f := by
  unfold regOf
  split <;> simp <;> omega

/-- The bounds of a command's fields. -/
theorem reg_field_lt (r : RegId) : r.val < 16 := by omega

/-- What case `OP = 1` of 30_encoding R76 accepts. -/
theorem decodeModred_ok {c : Word} {i : Instr} (h : decodeModred c = .ok i) :
    fieldCHK c = 0 ∧ fieldRY c = 0 ∧ fieldRX c = 0 ∧ fieldRB c = 0
      ∧ ∃ rd ra rm : RegId, fieldRD c = rd ∧ fieldRA c = ra ∧ fieldRM c = rm ∧ i = .modred rd ra rm := by
  unfold decodeModred at h
  split_ifs at h with h1 h2
  split at h <;> cases h
  rename_i hrd hra hrm
  exact ⟨by omega, by omega, by omega, by omega, _, _, _, regOf_some hrd, regOf_some hra, regOf_some hrm, rfl⟩

/-- What case `OP = 2` of 30_encoding R76 accepts. -/
theorem decodeModmul_ok {c : Word} {i : Instr} (h : decodeModmul c = .ok i) :
    fieldCHK c = 0 ∧ fieldRY c = 0 ∧ fieldRX c = 0
      ∧ ∃ rd ra rb rm : RegId, fieldRD c = rd ∧ fieldRA c = ra ∧ fieldRB c = rb ∧ fieldRM c = rm ∧ i = .modmul rd ra rb rm := by
  unfold decodeModmul at h
  split_ifs at h with h1 h2
  split at h <;> cases h
  rename_i hrd hra hrb hrm
  exact ⟨by omega, by omega, by omega, _, _, _, _, regOf_some hrd, regOf_some hra, regOf_some hrb, regOf_some hrm, rfl⟩

/-- What case `OP = 3` of 30_encoding R76 accepts. -/
theorem decodeModexp_ok {c : Word} {i : Instr} (h : decodeModexp c = .ok i) :
    fieldRY c = 0 ∧ fieldRX c = 0
      ∧ ∃ rd ra rb rm : RegId, fieldRD c = rd ∧ fieldRA c = ra ∧ fieldRB c = rb ∧ fieldRM c = rm
        ∧ i = .modexp rd ra rb rm (fieldCHK c == 1) := by
  unfold decodeModexp at h
  split_ifs at h with h1
  split at h <;> cases h
  rename_i hrd hra hrb hrm
  exact ⟨by omega, by omega, _, _, _, _, regOf_some hrd, regOf_some hra, regOf_some hrb, regOf_some hrm, rfl⟩

/-- What case `OP = 4` of 30_encoding R76 accepts. -/
theorem decodeXgcd_ok {c : Word} {i : Instr} (h : decodeXgcd c = .ok i) :
    fieldCHK c = 0 ∧ fieldRM c = 0
      ∧ ∃ rd rx ry ra rb : RegId, fieldRD c = rd ∧ fieldRX c = rx ∧ fieldRY c = ry ∧ fieldRA c = ra ∧ fieldRB c = rb
        ∧ distinctDests rd rx ry = true ∧ i = .xgcd rd rx ry ra rb := by
  unfold decodeXgcd at h
  split_ifs at h with h1 h2
  split at h
  · split at h <;> cases h
    rename_i hrd hrx hry hra hrb hd
    exact ⟨by omega, by omega, _, _, _, _, _, regOf_some hrd, regOf_some hrx, regOf_some hry,
      regOf_some hra, regOf_some hrb, hd, rfl⟩
  · cases h

/-- What case `OP = 5` of 30_encoding R76 accepts. -/
theorem decodeModinv_ok {c : Word} {i : Instr} (h : decodeModinv c = .ok i) :
    fieldCHK c = 0 ∧ fieldRY c = 0 ∧ fieldRX c = 0 ∧ fieldRB c = 0
      ∧ ∃ rd ra rm : RegId, fieldRD c = rd ∧ fieldRA c = ra ∧ fieldRM c = rm ∧ i = .modinv rd ra rm := by
  unfold decodeModinv at h
  split_ifs at h with h1 h2
  split at h <;> cases h
  rename_i hrd hra hrm
  exact ⟨by omega, by omega, by omega, by omega, _, _, _, regOf_some hrd, regOf_some hra, regOf_some hrm, rfl⟩

/-- What case `OP = 6` of 30_encoding R76 accepts. -/
theorem decodeLincon_ok {c : Word} {i : Instr} (h : decodeLincon c = .ok i) :
    fieldCHK c = 0
      ∧ ∃ rd rx ry ra rb rm : RegId, fieldRD c = rd ∧ fieldRX c = rx ∧ fieldRY c = ry ∧ fieldRA c = ra ∧ fieldRB c = rb
        ∧ fieldRM c = rm ∧ distinctDests rd rx ry = true ∧ i = .lincon rd rx ry ra rb rm := by
  unfold decodeLincon at h
  split_ifs at h with h1
  split at h
  · split at h <;> cases h
    rename_i hrd hrx hry hra hrb hrm hd
    exact ⟨by omega, _, _, _, _, _, _, regOf_some hrd, regOf_some hrx, regOf_some hry,
      regOf_some hra, regOf_some hrb, regOf_some hrm, hd, rfl⟩
  · cases h

/-- An accepted word has `RES` 0 and is of one of the six operations, read by its case. -/
theorem decode_ok_cases {c : Word} {i : Instr} (h : decode c = .ok i) :
    fieldRES c = 0
      ∧ ((fieldOP c = 1 ∧ decodeModred c = .ok i) ∨ (fieldOP c = 2 ∧ decodeModmul c = .ok i)
        ∨ (fieldOP c = 3 ∧ decodeModexp c = .ok i) ∨ (fieldOP c = 4 ∧ decodeXgcd c = .ok i)
        ∨ (fieldOP c = 5 ∧ decodeModinv c = .ok i) ∨ (fieldOP c = 6 ∧ decodeLincon c = .ok i)) := by
  unfold decode at h
  split_ifs at h with h1
  refine ⟨by omega, ?_⟩
  split at h
  all_goals first | cases h | tauto

end Sys2Proof
end

