-- ==== Sys2Proof/Laws/State.lean ====
section
/-! SUPPORT. One lemma per field per update of the state, and how each operation acts on a register read, so that no proof unfolds a
record update. -/

namespace Sys2Proof.Machine

variable (s : State)


/-! `writeReg` -/

@[simp] theorem State.writeReg_limbs (i : RegId) (v : Nat) : (s.writeReg i v).limbs = s.limbs := rfl
@[simp] theorem State.writeReg_x (i : RegId) (v : Nat) : (s.writeReg i v).x = s.x.set i v := rfl
@[simp] theorem State.writeReg_phase (i : RegId) (v : Nat) : (s.writeReg i v).phase = s.phase := rfl
@[simp] theorem State.writeReg_cmd (i : RegId) (v : Nat) : (s.writeReg i v).cmd = s.cmd := rfl
@[simp] theorem State.writeReg_errcode (i : RegId) (v : Nat) : (s.writeReg i v).errcode = s.errcode := rfl
@[simp] theorem State.writeReg_sx (i : RegId) (v : Nat) : (s.writeReg i v).sx = s.sx := rfl
@[simp] theorem State.writeReg_sy (i : RegId) (v : Nat) : (s.writeReg i v).sy = s.sy := rfl
@[simp] theorem State.writeReg_empty (i : RegId) (v : Nat) : (s.writeReg i v).empty = s.empty := rfl
@[simp] theorem State.writeReg_wrdrop (i : RegId) (v : Nat) : (s.writeReg i v).wrdrop = s.wrdrop := rfl
@[simp] theorem State.writeReg_ie (i : RegId) (v : Nat) : (s.writeReg i v).ie = s.ie := rfl
@[simp] theorem State.writeReg_rst (i : RegId) (v : Nat) : (s.writeReg i v).rst = s.rst := rfl
@[simp] theorem State.writeReg_host (i : RegId) (v : Nat) : (s.writeReg i v).host = s.host := rfl
@[simp] theorem State.writeReg_turns (i : RegId) (v : Nat) : (s.writeReg i v).turns = s.turns := rfl
@[simp] theorem State.writeReg_returned (i : RegId) (v : Nat) : (s.writeReg i v).returned = s.returned := rfl

/-! `raise` -/

@[simp] theorem State.raise_limbs (e : MauError) : (s.raise e).limbs = s.limbs := rfl
@[simp] theorem State.raise_x (e : MauError) : (s.raise e).x = s.x := rfl
@[simp] theorem State.raise_phase (e : MauError) : (s.raise e).phase = .error := rfl
@[simp] theorem State.raise_cmd (e : MauError) : (s.raise e).cmd = s.cmd := rfl
@[simp] theorem State.raise_errcode (e : MauError) : (s.raise e).errcode = e.code := rfl
@[simp] theorem State.raise_sx (e : MauError) : (s.raise e).sx = false := rfl
@[simp] theorem State.raise_sy (e : MauError) : (s.raise e).sy = false := rfl
@[simp] theorem State.raise_empty (e : MauError) : (s.raise e).empty = false := rfl
@[simp] theorem State.raise_wrdrop (e : MauError) : (s.raise e).wrdrop = s.wrdrop := rfl
@[simp] theorem State.raise_ie (e : MauError) : (s.raise e).ie = s.ie := rfl
@[simp] theorem State.raise_rst (e : MauError) : (s.raise e).rst = s.rst := rfl
@[simp] theorem State.raise_host (e : MauError) : (s.raise e).host = s.host := rfl
@[simp] theorem State.raise_turns (e : MauError) : (s.raise e).turns = s.turns := rfl
@[simp] theorem State.raise_returned (e : MauError) : (s.raise e).returned = s.returned := rfl
@[simp] theorem State.raise_readReg (e : MauError) (r : RegId) : (s.raise e).readReg r = s.readReg r := rfl

/-! `drop` -/

@[simp] theorem State.drop_limbs : (s.drop).limbs = s.limbs := rfl
@[simp] theorem State.drop_x : (s.drop).x = s.x := rfl
@[simp] theorem State.drop_phase : (s.drop).phase = s.phase := rfl
@[simp] theorem State.drop_cmd : (s.drop).cmd = s.cmd := rfl
@[simp] theorem State.drop_errcode : (s.drop).errcode = s.errcode := rfl
@[simp] theorem State.drop_sx : (s.drop).sx = s.sx := rfl
@[simp] theorem State.drop_sy : (s.drop).sy = s.sy := rfl
@[simp] theorem State.drop_empty : (s.drop).empty = s.empty := rfl
@[simp] theorem State.drop_wrdrop : (s.drop).wrdrop = true := rfl
@[simp] theorem State.drop_ie : (s.drop).ie = s.ie := rfl
@[simp] theorem State.drop_rst : (s.drop).rst = s.rst := rfl
@[simp] theorem State.drop_host : (s.drop).host = s.host := rfl
@[simp] theorem State.drop_turns : (s.drop).turns = s.turns := rfl
@[simp] theorem State.drop_returned : (s.drop).returned = s.returned := rfl
@[simp] theorem State.drop_readReg (r : RegId) : (s.drop).readReg r = s.readReg r := rfl

/-! `accept` -/

@[simp] theorem State.accept_limbs (v : Word) : (s.accept v).limbs = s.limbs := rfl
@[simp] theorem State.accept_x (v : Word) : (s.accept v).x = s.x := rfl
@[simp] theorem State.accept_phase (v : Word) : (s.accept v).phase = .busy := rfl
@[simp] theorem State.accept_cmd (v : Word) : (s.accept v).cmd = v := rfl
@[simp] theorem State.accept_errcode (v : Word) : (s.accept v).errcode = 0 := rfl
@[simp] theorem State.accept_sx (v : Word) : (s.accept v).sx = false := rfl
@[simp] theorem State.accept_sy (v : Word) : (s.accept v).sy = false := rfl
@[simp] theorem State.accept_empty (v : Word) : (s.accept v).empty = false := rfl
@[simp] theorem State.accept_wrdrop (v : Word) : (s.accept v).wrdrop = s.wrdrop := rfl
@[simp] theorem State.accept_ie (v : Word) : (s.accept v).ie = s.ie := rfl
@[simp] theorem State.accept_rst (v : Word) : (s.accept v).rst = s.rst := rfl
@[simp] theorem State.accept_host (v : Word) : (s.accept v).host = s.host := rfl
@[simp] theorem State.accept_turns (v : Word) : (s.accept v).turns = s.turns := rfl
@[simp] theorem State.accept_returned (v : Word) : (s.accept v).returned = s.returned := rfl
@[simp] theorem State.accept_readReg (v : Word) (r : RegId) : (s.accept v).readReg r = s.readReg r := rfl

/-! `resetAction` -/

@[simp] theorem State.resetAction_limbs : (s.resetAction).limbs = s.limbs := rfl
@[simp] theorem State.resetAction_x : (s.resetAction).x = Vector.replicate 8 0 := rfl
@[simp] theorem State.resetAction_phase : (s.resetAction).phase = .idle := rfl
@[simp] theorem State.resetAction_cmd : (s.resetAction).cmd = 0 := rfl
@[simp] theorem State.resetAction_errcode : (s.resetAction).errcode = 0 := rfl
@[simp] theorem State.resetAction_sx : (s.resetAction).sx = false := rfl
@[simp] theorem State.resetAction_sy : (s.resetAction).sy = false := rfl
@[simp] theorem State.resetAction_empty : (s.resetAction).empty = false := rfl
@[simp] theorem State.resetAction_wrdrop : (s.resetAction).wrdrop = false := rfl
@[simp] theorem State.resetAction_ie : (s.resetAction).ie = false := rfl
@[simp] theorem State.resetAction_rst : (s.resetAction).rst = s.rst := rfl
@[simp] theorem State.resetAction_host : (s.resetAction).host = s.host := rfl
@[simp] theorem State.resetAction_turns : (s.resetAction).turns = s.turns := rfl
@[simp] theorem State.resetAction_returned : (s.resetAction).returned = s.returned := rfl

/-! `deliver` -/

@[simp] theorem State.deliver_limbs (v : Word) (rest : List HostAct) : (s.deliver v rest).limbs = s.limbs := rfl
@[simp] theorem State.deliver_x (v : Word) (rest : List HostAct) : (s.deliver v rest).x = s.x := rfl
@[simp] theorem State.deliver_phase (v : Word) (rest : List HostAct) : (s.deliver v rest).phase = s.phase := rfl
@[simp] theorem State.deliver_cmd (v : Word) (rest : List HostAct) : (s.deliver v rest).cmd = s.cmd := rfl
@[simp] theorem State.deliver_errcode (v : Word) (rest : List HostAct) : (s.deliver v rest).errcode = s.errcode := rfl
@[simp] theorem State.deliver_sx (v : Word) (rest : List HostAct) : (s.deliver v rest).sx = s.sx := rfl
@[simp] theorem State.deliver_sy (v : Word) (rest : List HostAct) : (s.deliver v rest).sy = s.sy := rfl
@[simp] theorem State.deliver_empty (v : Word) (rest : List HostAct) : (s.deliver v rest).empty = s.empty := rfl
@[simp] theorem State.deliver_wrdrop (v : Word) (rest : List HostAct) : (s.deliver v rest).wrdrop = s.wrdrop := rfl
@[simp] theorem State.deliver_ie (v : Word) (rest : List HostAct) : (s.deliver v rest).ie = s.ie := rfl
@[simp] theorem State.deliver_rst (v : Word) (rest : List HostAct) : (s.deliver v rest).rst = s.rst := rfl
@[simp] theorem State.deliver_host (v : Word) (rest : List HostAct) : (s.deliver v rest).host = rest := rfl
@[simp] theorem State.deliver_turns (v : Word) (rest : List HostAct) : (s.deliver v rest).turns = s.turns := rfl
@[simp] theorem State.deliver_returned (v : Word) (rest : List HostAct) : (s.deliver v rest).returned = s.returned ++ [v] := rfl
@[simp] theorem State.deliver_readReg (v : Word) (rest : List HostAct) (r : RegId) : (s.deliver v rest).readReg r = s.readReg r := rfl

/-! `placeCommand` -/

@[simp] theorem State.placeCommand_limbs (v : Word) : (s.placeCommand v).limbs = s.limbs := rfl
@[simp] theorem State.placeCommand_x (v : Word) : (s.placeCommand v).x = s.x := rfl
@[simp] theorem State.placeCommand_phase (v : Word) : (s.placeCommand v).phase = .busy := rfl
@[simp] theorem State.placeCommand_cmd (v : Word) : (s.placeCommand v).cmd = v := rfl
@[simp] theorem State.placeCommand_errcode (v : Word) : (s.placeCommand v).errcode = 0 := rfl
@[simp] theorem State.placeCommand_sx (v : Word) : (s.placeCommand v).sx = false := rfl
@[simp] theorem State.placeCommand_sy (v : Word) : (s.placeCommand v).sy = false := rfl
@[simp] theorem State.placeCommand_empty (v : Word) : (s.placeCommand v).empty = false := rfl
@[simp] theorem State.placeCommand_wrdrop (v : Word) : (s.placeCommand v).wrdrop = s.wrdrop := rfl
@[simp] theorem State.placeCommand_ie (v : Word) : (s.placeCommand v).ie = s.ie := rfl
@[simp] theorem State.placeCommand_rst (v : Word) : (s.placeCommand v).rst = false := rfl
@[simp] theorem State.placeCommand_host (v : Word) : (s.placeCommand v).host = s.host := rfl
@[simp] theorem State.placeCommand_turns (v : Word) : (s.placeCommand v).turns = .engine :: s.turns := rfl
@[simp] theorem State.placeCommand_returned (v : Word) : (s.placeCommand v).returned = s.returned := rfl
@[simp] theorem State.placeCommand_readReg (v : Word) (r : RegId) : (s.placeCommand v).readReg r = s.readReg r := rfl

/-! `withHost` -/

@[simp] theorem State.withHost_limbs (rest : List HostAct) : (s.withHost rest).limbs = s.limbs := rfl
@[simp] theorem State.withHost_x (rest : List HostAct) : (s.withHost rest).x = s.x := rfl
@[simp] theorem State.withHost_phase (rest : List HostAct) : (s.withHost rest).phase = s.phase := rfl
@[simp] theorem State.withHost_cmd (rest : List HostAct) : (s.withHost rest).cmd = s.cmd := rfl
@[simp] theorem State.withHost_errcode (rest : List HostAct) : (s.withHost rest).errcode = s.errcode := rfl
@[simp] theorem State.withHost_sx (rest : List HostAct) : (s.withHost rest).sx = s.sx := rfl
@[simp] theorem State.withHost_sy (rest : List HostAct) : (s.withHost rest).sy = s.sy := rfl
@[simp] theorem State.withHost_empty (rest : List HostAct) : (s.withHost rest).empty = s.empty := rfl
@[simp] theorem State.withHost_wrdrop (rest : List HostAct) : (s.withHost rest).wrdrop = s.wrdrop := rfl
@[simp] theorem State.withHost_ie (rest : List HostAct) : (s.withHost rest).ie = s.ie := rfl
@[simp] theorem State.withHost_rst (rest : List HostAct) : (s.withHost rest).rst = s.rst := rfl
@[simp] theorem State.withHost_host (rest : List HostAct) : (s.withHost rest).host = rest := rfl
@[simp] theorem State.withHost_turns (rest : List HostAct) : (s.withHost rest).turns = s.turns := rfl
@[simp] theorem State.withHost_returned (rest : List HostAct) : (s.withHost rest).returned = s.returned := rfl
@[simp] theorem State.withHost_readReg (rest : List HostAct) (r : RegId) : (s.withHost rest).readReg r = s.readReg r := rfl

/-! Registers -/

theorem State.writeReg_readReg (i : RegId) (v : Nat) (r : RegId) :
    (s.writeReg i v).readReg r = if r = i then v else s.readReg r := by
  unfold State.readReg State.writeReg
  by_cases h : r = i
  · subst h
    simp
  · have h' : i.val ≠ r.val := fun e => h (Fin.ext e.symm)
    simp [h, h']

@[simp] theorem State.writeReg_readReg_same (i : RegId) (v : Nat) : (s.writeReg i v).readReg i = v := by
  rw [State.writeReg_readReg, if_pos rfl]

theorem State.writeReg_readReg_ne (i : RegId) (v : Nat) (r : RegId) (h : r ≠ i) :
    (s.writeReg i v).readReg r = s.readReg r := by
  rw [State.writeReg_readReg, if_neg h]

@[simp] theorem State.resetAction_readReg (r : RegId) : s.resetAction.readReg r = 0 := by
  simp [State.readReg]

@[simp] theorem State.resetAt_readReg (L : Nat) (r : RegId) : (State.resetAt L).readReg r = 0 := by
  simp [State.readReg, State.resetAt]

/-- Two register files that read alike are equal. -/
theorem vector_ext_readReg (t : State) (h : ∀ r, s.readReg r = t.readReg r) : s.x = t.x := by
  ext k hk
  exact h ⟨k, hk⟩

/-! `writeRegs` changes only `x`. -/

@[simp] theorem State.writeRegs_limbs (l : List (RegId × Nat)) (s : State) : (s.writeRegs l).limbs = s.limbs := by
  induction l generalizing s with
  | nil => rfl
  | cons p l ih => exact ih _
@[simp] theorem State.writeRegs_phase (l : List (RegId × Nat)) (s : State) : (s.writeRegs l).phase = s.phase := by
  induction l generalizing s with
  | nil => rfl
  | cons p l ih => exact ih _
@[simp] theorem State.writeRegs_cmd (l : List (RegId × Nat)) (s : State) : (s.writeRegs l).cmd = s.cmd := by
  induction l generalizing s with
  | nil => rfl
  | cons p l ih => exact ih _
@[simp] theorem State.writeRegs_errcode (l : List (RegId × Nat)) (s : State) : (s.writeRegs l).errcode = s.errcode := by
  induction l generalizing s with
  | nil => rfl
  | cons p l ih => exact ih _
@[simp] theorem State.writeRegs_sx (l : List (RegId × Nat)) (s : State) : (s.writeRegs l).sx = s.sx := by
  induction l generalizing s with
  | nil => rfl
  | cons p l ih => exact ih _
@[simp] theorem State.writeRegs_sy (l : List (RegId × Nat)) (s : State) : (s.writeRegs l).sy = s.sy := by
  induction l generalizing s with
  | nil => rfl
  | cons p l ih => exact ih _
@[simp] theorem State.writeRegs_empty (l : List (RegId × Nat)) (s : State) : (s.writeRegs l).empty = s.empty := by
  induction l generalizing s with
  | nil => rfl
  | cons p l ih => exact ih _
@[simp] theorem State.writeRegs_wrdrop (l : List (RegId × Nat)) (s : State) : (s.writeRegs l).wrdrop = s.wrdrop := by
  induction l generalizing s with
  | nil => rfl
  | cons p l ih => exact ih _
@[simp] theorem State.writeRegs_ie (l : List (RegId × Nat)) (s : State) : (s.writeRegs l).ie = s.ie := by
  induction l generalizing s with
  | nil => rfl
  | cons p l ih => exact ih _
@[simp] theorem State.writeRegs_rst (l : List (RegId × Nat)) (s : State) : (s.writeRegs l).rst = s.rst := by
  induction l generalizing s with
  | nil => rfl
  | cons p l ih => exact ih _
@[simp] theorem State.writeRegs_host (l : List (RegId × Nat)) (s : State) : (s.writeRegs l).host = s.host := by
  induction l generalizing s with
  | nil => rfl
  | cons p l ih => exact ih _
@[simp] theorem State.writeRegs_turns (l : List (RegId × Nat)) (s : State) : (s.writeRegs l).turns = s.turns := by
  induction l generalizing s with
  | nil => rfl
  | cons p l ih => exact ih _
@[simp] theorem State.writeRegs_returned (l : List (RegId × Nat)) (s : State) : (s.writeRegs l).returned = s.returned := by
  induction l generalizing s with
  | nil => rfl
  | cons p l ih => exact ih _

theorem State.writeRegs_readReg_notMem (l : List (RegId × Nat)) (s : State) (r : RegId) (h : r ∉ l.map Prod.fst) :
    (s.writeRegs l).readReg r = s.readReg r := by
  induction l generalizing s with
  | nil => rfl
  | cons p l ih =>
    simp only [List.map_cons, List.mem_cons, not_or] at h
    exact (ih _ h.2).trans (State.writeReg_readReg_ne s p.1 p.2 r h.1)

/-- With no register written twice, each write stands. -/
theorem State.writeRegs_readReg_mem (l : List (RegId × Nat)) (s : State) (r : RegId) (v : Nat)
    (nodup : (l.map Prod.fst).Nodup) (h : (r, v) ∈ l) : (s.writeRegs l).readReg r = v := by
  induction l generalizing s with
  | nil => cases h
  | cons p l ih =>
    simp only [List.map_cons, List.nodup_cons] at nodup
    rcases List.mem_cons.1 h with rfl | h
    · exact (State.writeRegs_readReg_notMem l _ _ nodup.1).trans (State.writeReg_readReg_same s r v)
    · exact ih _ nodup.2 h

/-! `retire` -/

@[simp] theorem State.retire_limbs (c : Commit) : (s.retire c).limbs = s.limbs := State.writeRegs_limbs c.writes s
@[simp] theorem State.retire_x (c : Commit) : (s.retire c).x = (s.writeRegs c.writes).x := rfl
@[simp] theorem State.retire_phase (c : Commit) : (s.retire c).phase = .done := rfl
@[simp] theorem State.retire_cmd (c : Commit) : (s.retire c).cmd = s.cmd := State.writeRegs_cmd c.writes s
@[simp] theorem State.retire_errcode (c : Commit) : (s.retire c).errcode = s.errcode := State.writeRegs_errcode c.writes s
@[simp] theorem State.retire_sx (c : Commit) : (s.retire c).sx = c.sx := rfl
@[simp] theorem State.retire_sy (c : Commit) : (s.retire c).sy = c.sy := rfl
@[simp] theorem State.retire_empty (c : Commit) : (s.retire c).empty = c.empty := rfl
@[simp] theorem State.retire_wrdrop (c : Commit) : (s.retire c).wrdrop = s.wrdrop := State.writeRegs_wrdrop c.writes s
@[simp] theorem State.retire_ie (c : Commit) : (s.retire c).ie = s.ie := State.writeRegs_ie c.writes s
@[simp] theorem State.retire_rst (c : Commit) : (s.retire c).rst = s.rst := State.writeRegs_rst c.writes s
@[simp] theorem State.retire_host (c : Commit) : (s.retire c).host = s.host := State.writeRegs_host c.writes s
@[simp] theorem State.retire_turns (c : Commit) : (s.retire c).turns = s.turns := State.writeRegs_turns c.writes s
@[simp] theorem State.retire_returned (c : Commit) : (s.retire c).returned = s.returned := State.writeRegs_returned c.writes s
@[simp] theorem State.retire_readReg (c : Commit) (r : RegId) : (s.retire c).readReg r = (s.writeRegs c.writes).readReg r := rfl

/-! `takeTurn` changes only `turns`. -/

@[simp] theorem State.takeTurn_limbs : s.takeTurn.limbs = s.limbs := by unfold State.takeTurn; split <;> rfl
@[simp] theorem State.takeTurn_x : s.takeTurn.x = s.x := by unfold State.takeTurn; split <;> rfl
@[simp] theorem State.takeTurn_phase : s.takeTurn.phase = s.phase := by unfold State.takeTurn; split <;> rfl
@[simp] theorem State.takeTurn_cmd : s.takeTurn.cmd = s.cmd := by unfold State.takeTurn; split <;> rfl
@[simp] theorem State.takeTurn_errcode : s.takeTurn.errcode = s.errcode := by unfold State.takeTurn; split <;> rfl
@[simp] theorem State.takeTurn_sx : s.takeTurn.sx = s.sx := by unfold State.takeTurn; split <;> rfl
@[simp] theorem State.takeTurn_sy : s.takeTurn.sy = s.sy := by unfold State.takeTurn; split <;> rfl
@[simp] theorem State.takeTurn_empty : s.takeTurn.empty = s.empty := by unfold State.takeTurn; split <;> rfl
@[simp] theorem State.takeTurn_wrdrop : s.takeTurn.wrdrop = s.wrdrop := by unfold State.takeTurn; split <;> rfl
@[simp] theorem State.takeTurn_ie : s.takeTurn.ie = s.ie := by unfold State.takeTurn; split <;> rfl
@[simp] theorem State.takeTurn_rst : s.takeTurn.rst = s.rst := by unfold State.takeTurn; split <;> rfl
@[simp] theorem State.takeTurn_host : s.takeTurn.host = s.host := by unfold State.takeTurn; split <;> rfl
@[simp] theorem State.takeTurn_returned : s.takeTurn.returned = s.returned := by unfold State.takeTurn; split <;> rfl
@[simp] theorem State.takeTurn_readReg (r : RegId) : s.takeTurn.readReg r = s.readReg r := by unfold State.takeTurn; split <;> rfl
theorem State.takeTurn_busy (h : s.phase = .busy) : s.takeTurn = { s with turns := s.turns.tail } := by simp [State.takeTurn, h]
theorem State.takeTurn_notBusy (h : s.phase ≠ .busy) : s.takeTurn = s := by
  unfold State.takeTurn; split <;> simp_all

/-! Operations with cases: what each does, by phase. -/

theorem State.writeCmd_accepts (v : Word) (h : s.phase = .idle ∨ s.phase = .done) : s.writeCmd v = s.accept v := by
  rcases h with h | h <;> simp [State.writeCmd, h]
theorem State.writeCmd_drops (v : Word) (h : s.phase = .busy ∨ s.phase = .error) : s.writeCmd v = s.drop := by
  rcases h with h | h <;> simp [State.writeCmd, h]
theorem State.writeLimb_busy (i : RegId) (j : Nat) (v : Word) (h : s.phase = .busy) : s.writeLimb i j v = s.drop := by
  simp [State.writeLimb, h]
theorem State.writeLimb_notBusy (i : RegId) (j : Nat) (v : Word) (h : s.phase ≠ .busy) :
    s.writeLimb i j v = s.writeReg i (setLimb (s.readReg i) j v) := by
  unfold State.writeLimb; split <;> simp_all
theorem State.acknowledge_ends (h : s.phase = .done ∨ s.phase = .error) :
    s.acknowledge
      = { s with wrdrop := false, phase := .idle, errcode := 0, sx := false, sy := false, empty := false } := by
  rcases h with h | h <;> simp [State.acknowledge, h]
theorem State.acknowledge_keeps (h : s.phase = .idle ∨ s.phase = .busy) : s.acknowledge = { s with wrdrop := false } := by
  rcases h with h | h <;> simp [State.acknowledge, h]

end Sys2Proof.Machine
end

