-- ==== Sys2Proof/Laws/Operands.lean ====
section
/-! SUPPORT. Limbs (00_scope R11, 20_memory R54, R58): what replacing one limb does to every limb and to the bound, and a value as the sum
of its limbs. -/

namespace Sys2Proof.Machine

theorem limbOf_toNat (v j : Nat) : (limbOf v j).toNat = v / 2 ^ (32 * j) % 2 ^ 32 := by
  simp only [limbOf, BitVec.toNat_ofNat]

/-- The arithmetic of `setLimb`, with `A` for `2^(32*j)` and `B` for `2^32`. -/
theorem replace_digit (x A B w : Nat) (hA : 0 < A) (hw : w < B) :
    (x % A + w * A + x / (A * B) * (A * B)) / A % B = w
      ∧ (x % A + w * A + x / (A * B) * (A * B)) % A = x % A
      ∧ (x % A + w * A + x / (A * B) * (A * B)) / (A * B) = x / (A * B) := by
  have form : x % A + w * A + x / (A * B) * (A * B) = x % A + A * (w + B * (x / (A * B))) := by ring
  have hdiv : (x % A + A * (w + B * (x / (A * B)))) / A = w + B * (x / (A * B)) := by
    rw [Nat.add_mul_div_left _ _ hA, Nat.div_eq_of_lt (Nat.mod_lt _ hA), Nat.zero_add]
  rw [form]
  refine ⟨?_, ?_, ?_⟩
  · rw [hdiv, Nat.add_mul_mod_self_left, Nat.mod_eq_of_lt hw]
  · rw [Nat.add_mul_mod_self_left, Nat.mod_mod]
  · rw [← Nat.div_div_eq_div_mul, hdiv, Nat.add_mul_div_left _ _ (by omega), Nat.div_eq_of_lt hw, Nat.zero_add]

theorem replace_digit_lt (x A B C w : Nat) (hA : 0 < A) (hw : w < B) (hx : x < A * B * C) :
    x % A + w * A + x / (A * B) * (A * B) < A * B * C := by
  have h1 : x / (A * B) < C := Nat.div_lt_of_lt_mul hx
  have h2 : x % A + w * A < A * B := by
    have := Nat.mod_lt x hA
    have : (w + 1) * A ≤ B * A := Nat.mul_le_mul_right _ hw
    rw [Nat.mul_comm A B]
    rw [Nat.add_mul] at this
    omega
  have h3 : (x / (A * B) + 1) * (A * B) ≤ C * (A * B) := Nat.mul_le_mul_right _ h1
  rw [Nat.add_mul] at h3
  rw [Nat.mul_comm (A * B) C]
  omega

theorem setLimb_eq (x j : Nat) (w : Word) :
    setLimb x j w
      = x % 2 ^ (32 * j) + w.toNat * 2 ^ (32 * j) + x / (2 ^ (32 * j) * 2 ^ 32) * (2 ^ (32 * j) * 2 ^ 32) := by
  unfold setLimb
  rw [show 32 * (j + 1) = 32 * j + 32 by ring, pow_add]

/-- The limb written reads back. -/
theorem limbOf_setLimb_same (x j : Nat) (w : Word) : limbOf (setLimb x j w) j = w := by
  apply BitVec.eq_of_toNat_eq
  rw [limbOf_toNat, setLimb_eq]
  exact (replace_digit x _ _ _ (Nat.two_pow_pos _) w.isLt).1

theorem digit_above (y a b : Nat) (h : a ≤ b) : y / 2 ^ b = y / 2 ^ a / 2 ^ (b - a) := by
  rw [Nat.div_div_eq_div_mul, ← pow_add]
  congr 2
  omega

theorem digit_below (y a c : Nat) (h : a + 32 ≤ c) : y / 2 ^ a % 2 ^ 32 = y % 2 ^ c / 2 ^ a % 2 ^ 32 := by
  have e : 2 ^ c = 2 ^ a * (2 ^ 32 * 2 ^ (c - a - 32)) := by
    rw [← pow_add, ← pow_add, show a + (32 + (c - a - 32)) = c by omega]
  rw [e, Nat.mod_mul_right_div_self, Nat.mod_mul_right_mod]

/-- Every other limb is as before. -/
theorem limbOf_setLimb_ne (x j n : Nat) (w : Word) (h : n ≠ j) : limbOf (setLimb x j w) n = limbOf x n := by
  have ha := replace_digit x _ _ _ (Nat.two_pow_pos (32 * j)) w.isLt
  rw [← setLimb_eq] at ha
  apply BitVec.eq_of_toNat_eq
  rw [limbOf_toNat, limbOf_toNat]
  rcases Nat.lt_or_gt_of_ne h with h | h
  · rw [digit_below _ (32 * n) (32 * j) (by omega), ha.2.1, ← digit_below x (32 * n) (32 * j) (by omega)]
  · have hd := ha.2.2
    rw [← pow_add] at hd
    rw [digit_above _ (32 * j + 32) (32 * n) (by omega), hd, ← digit_above x (32 * j + 32) (32 * n) (by omega)]

/-- A register below `2^W` stays so. -/
theorem setLimb_lt (x j L : Nat) (w : Word) (hj : j < L) (hx : x < 2 ^ (32 * L)) : setLimb x j w < 2 ^ (32 * L) := by
  have e : 2 ^ (32 * L) = 2 ^ (32 * j) * 2 ^ 32 * 2 ^ (32 * L - 32 * j - 32) := by
    rw [← pow_add, ← pow_add]
    congr 1
    omega
  rw [setLimb_eq, e]
  rw [e] at hx
  exact replace_digit_lt _ _ _ _ _ (Nat.two_pow_pos _) w.isLt hx

/-- The sum of the first `n` limbs is the value modulo `2^(32*n)`. -/
theorem sumLimbs_eq (v n : Nat) : sumLimbs v n = v % 2 ^ (32 * n) := by
  induction n with
  | zero => simp [sumLimbs, Nat.mod_one]
  | succ n ih =>
    simp only [sumLimbs, ih, limbOf_toNat]
    rw [show 32 * (n + 1) = 32 * n + 32 by ring, pow_add, Nat.mod_mul]
    ring

/-- Two values below `2^W` with the same limbs are equal. -/
theorem eq_of_limbs (v w L : Nat) (hv : v < 2 ^ (32 * L)) (hw : w < 2 ^ (32 * L))
    (h : ∀ m, m < L → limbOf v m = limbOf w m) : v = w := by
  have key : ∀ n, n ≤ L → sumLimbs v n = sumLimbs w n := by
    intro n hn
    induction n with
    | zero => rfl
    | succ n ih => rw [sumLimbs, sumLimbs, ih (by omega), h n (by omega)]
  have e := key L le_rfl
  rwa [sumLimbs_eq, sumLimbs_eq, Nat.mod_eq_of_lt hv, Nat.mod_eq_of_lt hw] at e

end Sys2Proof.Machine
end

