-- ==== Sys2Proof/Laws/PerInstr.lean ====
section
/-! SUPPORT. Statements made per instruction: the operation field of a command's word is the row's of 30_encoding R73, and the reserved field and
the fields R74 marks 0 are 0. -/

namespace Sys2Proof.Laws.OpField

/-- `OP` of the command (30_encoding R73). -/
def opcode : Instr → Nat
  | .modred _ _ _ => 1
  | .modmul _ _ _ _ => 2
  | .modexp _ _ _ _ _ => 3
  | .xgcd _ _ _ _ _ => 4
  | .modinv _ _ _ => 5
  | .lincon _ _ _ _ _ _ => 6

/-- The word of `i` has `i`'s operation, and `RES` 0 (30_encoding R73, R74). -/
def Statement (i : Instr) : Prop :=
  fieldOP (encode i) = opcode i ∧ fieldRES (encode i) = 0

theorem of_pack {chk ry rx rm rb ra rd op : Nat} (h : FieldBounds chk ry rx rm rb ra rd op) :
    fieldOP (pack chk ry rx rm rb ra rd op) = op ∧ fieldRES (pack chk ry rx rm rb ra rd op) = 0 :=
  ⟨(pack_fields h).1, (pack_fields h).2.2.2.2.2.2.2.2⟩

theorem modred (rd ra rm : RegId) : Statement (.modred rd ra rm) :=
  of_pack (by constructor <;> omega)

theorem modmul (rd ra rb rm : RegId) : Statement (.modmul rd ra rb rm) :=
  of_pack (by constructor <;> omega)

theorem modexp (rd ra rb rm : RegId) (chk : Bool) : Statement (.modexp rd ra rb rm chk) :=
  of_pack (by have := chk.toNat_lt; constructor <;> omega)

theorem xgcd (rd rx ry ra rb : RegId) : Statement (.xgcd rd rx ry ra rb) :=
  of_pack (by constructor <;> omega)

theorem modinv (rd ra rm : RegId) : Statement (.modinv rd ra rm) :=
  of_pack (by constructor <;> omega)

theorem lincon (rd rx ry ra rb rm : RegId) : Statement (.lincon rd rx ry ra rb rm) :=
  of_pack (by constructor <;> omega)

end Sys2Proof.Laws.OpField
end

