-- ==== Sys2Proof/Laws/Step.lean ====
section
/-! SUPPORT. What each shared operation can do, said once: a command's commit, the host's read and write, and one step. -/

namespace Sys2Proof.Machine

variable (s : State)

/-! ### Commands -/

/-- Every command answers a next state: the commit of its result on the register file (60_exceptions R131). -/
theorem exec_eq_commit (i : Instr) : exec i s = .next (s.commit (resultOf i s.readReg)) := by
  cases i <;> rfl

/-- Completion is the commit of the word's outcome (60_exceptions R131). -/
theorem complete_eq_commit : s.complete = .next (s.commit (outcomeOf s.cmd s.readReg)) := by
  unfold State.complete outcomeOf
  cases decode s.cmd with
  | error e => rfl
  | ok i => exact exec_eq_commit s i

theorem outcomeOf_ok {c : Word} {i : Instr} (h : decode c = .ok i) (x : RegId → Nat) : outcomeOf c x = resultOf i x := by
  simp [outcomeOf, h]

theorem outcomeOf_illegal {c : Word} {e : Illegal} (h : decode c = .error e) (x : RegId → Nat) :
    outcomeOf c x = .error .illcmd := by
  simp [outcomeOf, h]

theorem commit_error (e : MauError) : s.commit (.error e) = s.raise e := rfl

theorem commit_ok (c : Commit) : s.commit (.ok c) = s.retire c := rfl

/-- No commit touches CMD, WRDROP, IE, or anything outside the unit. -/
theorem commit_sameRest (o : Except MauError Commit) : SameRest s (s.commit o) := by
  cases o with
  | error e => exact ⟨rfl, rfl, rfl, rfl, rfl, rfl, rfl, rfl⟩
  | ok c => simp [SameRest, State.commit]

theorem raise_endsError (e : MauError) : EndsError s (s.raise e) e := by
  simp [EndsError, SameRest]

theorem retire_endsDone (c : Commit) : EndsDone s (s.retire c) c.sx c.sy c.empty (c.writes.map Prod.fst) := by
  refine ⟨rfl, by simp, rfl, rfl, rfl, fun r h => ?_, by simp [SameRest]⟩
  rw [State.retire_readReg]
  exact State.writeRegs_readReg_notMem _ s r h

theorem distinctDests_nodup {rd rx ry : RegId} (h : distinctDests rd rx ry = true) : [rd, rx, ry].Nodup := by
  simp [distinctDests] at h
  simp [h]

/-- A result writes exactly the command's destinations, in order, no register twice. -/
theorem resultOf_writes {i : Instr} {x : RegId → Nat} {c : Commit} (h : resultOf i x = .ok c) :
    c.writes.map Prod.fst = destsOf i ∧ (c.writes.map Prod.fst).Nodup := by
  cases i <;> simp only [resultOf, modredResult, modmulResult, modexpResult, xgcdResult, modinvResult, linconResult] at h <;>
    (repeat' split at h) <;> simp_all <;> subst h <;> simp [Commit.plain, xgcdCommit, emptyCommit, destsOf] <;>
    first
      | done
      | (simp_all [distinctDests])

/-- Each register a command writes holds what its result says. -/
theorem retire_readReg_mem {i : Instr} {x : RegId → Nat} {c : Commit} (h : resultOf i x = .ok c) {r : RegId} {v : Nat}
    (hm : (r, v) ∈ c.writes) : (s.retire c).readReg r = v :=
  State.writeRegs_readReg_mem c.writes s r v (resultOf_writes h).2 hm

/-! ### Word indices (20_memory R50) -/

theorem selectWord_low {L k : Nat} (h1 : 4 ≤ k) (h2 : k < 64) : selectWord L k = .reserved := by
  simp only [selectWord, Config.xbase]
  rw [if_neg (by omega), if_neg (by omega), if_neg (by omega), if_neg (by omega), if_pos h2]

theorem selectWord_high {L k : Nat} (h : 64 ≤ k) :
    selectWord L k
      = if k < 64 + 8 * L then .limb (Fin.ofNat 8 ((k - 64) / L)) ((k - 64) % L) else .reserved := by
  simp only [selectWord, Config.xbase, Config.nreg]
  rw [if_neg (by omega), if_neg (by omega), if_neg (by omega), if_neg (by omega), if_neg (by omega)]

theorem selectWord_reserved {L k : Nat} (h : (4 ≤ k ∧ k ≤ 63) ∨ 64 + 8 * L ≤ k) : selectWord L k = .reserved := by
  by_cases hk : k < 64
  · exact selectWord_low (by omega) hk
  · rw [selectWord_high (by omega), if_neg (by omega)]

theorem window_register {L k : Nat} (h1 : 64 ≤ k) (h2 : k < 64 + 8 * L) : (k - 64) / L < 8 :=
  Nat.div_lt_of_lt_mul (by rw [Nat.mul_comm]; omega)

theorem selectWord_window {L k : Nat} (h1 : 64 ≤ k) (h2 : k < 64 + 8 * L) :
    selectWord L k = .limb ⟨(k - 64) / L, window_register h1 h2⟩ ((k - 64) % L) := by
  have hlt := window_register h1 h2
  have hf : Fin.ofNat 8 ((k - 64) / L) = ⟨(k - 64) / L, hlt⟩ := Fin.ext (Nat.mod_eq_of_lt hlt)
  rw [selectWord_high h1, if_pos h2, hf]

theorem limbIndex_window {L j : Nat} (i : RegId) (h : j < L) : 64 ≤ limbIndex L i j ∧ limbIndex L i j < 64 + 8 * L := by
  have : i.val * L ≤ 7 * L := Nat.mul_le_mul_right L (by omega)
  simp only [limbIndex, Config.xbase]
  omega

theorem selectWord_limbIndex {L j : Nat} (i : RegId) (h : j < L) : selectWord L (limbIndex L i j) = .limb i j := by
  obtain ⟨h1, h2⟩ := limbIndex_window i h
  have e : limbIndex L i j - 64 = j + L * i.val := by
    simp only [limbIndex, Config.xbase]
    rw [Nat.mul_comm L]
    omega
  have hd : (limbIndex L i j - 64) / L = i.val := by
    rw [e, Nat.add_mul_div_left _ _ (by omega), Nat.div_eq_of_lt h, Nat.zero_add]
  have hm : (limbIndex L i j - 64) % L = j := by
    rw [e, Nat.add_mul_mod_self_left, Nat.mod_eq_of_lt h]
  rw [selectWord_window h1 h2]
  congr 1
  · exact Fin.ext hd

/-- The index of a selected limb. -/
theorem selectWord_limb {L k : Nat} {i : RegId} {j : Nat} (h : selectWord L k = .limb i j) :
    j < L ∧ k = limbIndex L i j := by
  have hw : 64 ≤ k ∧ k < 64 + 8 * L := by
    by_contra hn
    by_cases hk : 4 ≤ k
    · rw [selectWord_reserved (by omega)] at h
      cases h
    · have : k = 0 ∨ k = 1 ∨ k = 2 ∨ k = 3 := by omega
      rcases this with rfl | rfl | rfl | rfl <;> cases h
  rw [selectWord_window hw.1 hw.2] at h
  injection h with h1 h2
  have hL : 0 < L := by omega
  refine ⟨h2 ▸ Nat.mod_lt _ hL, ?_⟩
  subst h1 h2
  have := Nat.div_add_mod (k - 64) L
  simp only [limbIndex, Config.xbase]
  rw [Nat.mul_comm L] at this
  omega

theorem selectWord_ge_four {L k : Nat} (h : 4 ≤ k) : selectWord L k ≠ .ctrl ∧ selectWord L k ≠ .cmd := by
  by_cases hk : k < 64 ∨ 64 + 8 * L ≤ k
  · rw [selectWord_reserved (by omega)]
    exact ⟨nofun, nofun⟩
  · rw [selectWord_window (by omega) (by omega)]
    exact ⟨nofun, nofun⟩

/-! ### Host writes (20_memory R57): everything one can do -/

/-- A host write drops, or writes one limb outside BUSY, or is accepted as a command, or is a CTRL write: soft reset, acknowledge or only IE. -/
theorem hostWrite_cases (k : Nat) (v : Word) :
    s.hostWrite k v = s.drop
      ∨ (∃ i j, j < s.limbs ∧ k = limbIndex s.limbs i j ∧ s.phase ≠ .busy
          ∧ s.hostWrite k v = s.writeReg i (setLimb (s.readReg i) j v))
      ∨ (k = 3 ∧ (s.phase = .idle ∨ s.phase = .done) ∧ s.hostWrite k v = s.accept v)
      ∨ (k = 1 ∧ v.getLsbD 2 = true ∧ s.hostWrite k v = s.resetAction)
      ∨ (k = 1 ∧ v.getLsbD 2 = false ∧ v.getLsbD 1 = true
          ∧ s.hostWrite k v = { s with ie := v.getLsbD 0 }.acknowledge)
      ∨ (k = 1 ∧ v.getLsbD 2 = false ∧ v.getLsbD 1 = false ∧ s.hostWrite k v = { s with ie := v.getLsbD 0 }) := by
  unfold State.hostWrite
  cases hsel : selectWord s.limbs k with
  | cap => exact .inl rfl
  | status => exact .inl rfl
  | reserved => exact .inl rfl
  | cmd =>
    have hk : k = 3 := by
      by_cases h4 : 4 ≤ k
      · exact absurd hsel (selectWord_ge_four h4).2
      · have : k = 0 ∨ k = 1 ∨ k = 2 ∨ k = 3 := by omega
        rcases this with rfl | rfl | rfl | rfl <;> first | rfl | cases hsel
    cases hp : s.phase with
    | idle => exact .inr (.inr (.inl ⟨hk, .inl rfl, s.writeCmd_accepts v (.inl hp)⟩))
    | done => exact .inr (.inr (.inl ⟨hk, .inr rfl, s.writeCmd_accepts v (.inr hp)⟩))
    | busy => exact .inl (s.writeCmd_drops v (.inl hp))
    | error => exact .inl (s.writeCmd_drops v (.inr hp))
  | ctrl =>
    have hk : k = 1 := by
      by_cases h4 : 4 ≤ k
      · exact absurd hsel (selectWord_ge_four h4).1
      · have : k = 0 ∨ k = 1 ∨ k = 2 ∨ k = 3 := by omega
        rcases this with rfl | rfl | rfl | rfl <;> first | rfl | cases hsel
    simp only [State.writeCtrl]
    cases h2 : v.getLsbD 2 with
    | true => exact .inr (.inr (.inr (.inl ⟨hk, rfl, by simp⟩)))
    | false =>
      cases h1 : v.getLsbD 1 with
      | true => exact .inr (.inr (.inr (.inr (.inl ⟨hk, rfl, rfl, by simp⟩))))
      | false => exact .inr (.inr (.inr (.inr (.inr ⟨hk, rfl, rfl, by simp⟩))))
  | limb i j =>
    obtain ⟨hj, hk⟩ := selectWord_limb hsel
    by_cases hp : s.phase = .busy
    · exact .inl (s.writeLimb_busy i j v hp)
    · exact .inr (.inl ⟨i, j, hj, hk, hp, s.writeLimb_notBusy i j v hp⟩)

/-! ### Steps: everything one can do -/

theorem engineMoves_busy (h : s.engineMoves = true) : s.phase = .busy ∧ s.rst = false := by
  simp only [State.engineMoves, Bool.and_eq_true, decide_eq_true_eq, Bool.not_eq_true'] at h
  exact h.1

theorem step_engine (h : s.engineMoves = true) :
    step s = .next (s.takeTurn.commit (outcomeOf s.cmd s.readReg)) := by
  simp only [step, State.advance, h, if_true]
  rw [complete_eq_commit, State.takeTurn_cmd]
  congr 3
  funext r
  exact s.takeTurn_readReg r

/-- A write action either writes what it presents or, with nothing to write back, only goes on. -/
theorem State.performWrite_some {a : HostAct} {k : Nat} {v : Word} (rest : List HostAct) (h : s.writeOf a = some (k, v)) :
    s.performWrite a rest = (s.withHost rest).hostWrite k v := by
  simp [State.performWrite, h]

theorem State.performWrite_none {a : HostAct} (rest : List HostAct) (h : s.writeOf a = none) :
    s.performWrite a rest = s.withHost rest := by
  simp [State.performWrite, h]

@[simp] theorem State.writeOf_write (k : Nat) (v : Word) : s.writeOf (.write k v) = some (k, v) := rfl
@[simp] theorem State.writeOf_clr : s.writeOf .clr = some (1, s.clrWord) := rfl
@[simp] theorem State.takeTurn_clrWord : s.takeTurn.clrWord = s.clrWord := by
  simp [State.clrWord]
@[simp] theorem State.takeTurn_wordBack (back : Nat) : s.takeTurn.wordBack back = s.wordBack back := by
  simp [State.wordBack]
@[simp] theorem State.takeTurn_writeOf (a : HostAct) : s.takeTurn.writeOf a = s.writeOf a := by
  cases a <;> simp [State.writeOf]

/-- A write action, performed in a step, is a host write of what it presents or only goes on. -/
theorem performWrite_cases (a : HostAct) (rest : List HostAct) :
    (∃ k v, s.writeOf a = some (k, v) ∧ s.takeTurn.performWrite a rest = (s.takeTurn.withHost rest).hostWrite k v)
      ∨ s.takeTurn.performWrite a rest = s.takeTurn.withHost rest := by
  cases h : s.writeOf a with
  | none => exact .inr (State.performWrite_none _ rest (by rw [State.takeTurn_writeOf, h]))
  | some p => exact .inl ⟨p.1, p.2, rfl, State.performWrite_some _ rest (by rw [State.takeTurn_writeOf, h])⟩

/-- A step that answers a next state is a completion, or changes nothing but the host's queue and the turns, or is one action of the
host. -/
theorem step_cases {t : State} (h : step s = .next t) :
    (s.engineMoves = true ∧ t = s.takeTurn.commit (outcomeOf s.cmd s.readReg))
      ∨ (s.engineMoves = false ∧ ∃ rest, t = s.takeTurn.withHost rest)
      ∨ (s.engineMoves = false ∧ ∃ level rest, s.host = .rst level :: rest
          ∧ t = (s.takeTurn.withHost rest).driveRst level)
      ∨ (s.engineMoves = false ∧ s.rst = false ∧ ∃ v rest, t = s.takeTurn.deliver v rest)
      ∨ (s.engineMoves = false ∧ s.rst = false ∧ ∃ k v a rest, s.host = a :: rest ∧ s.writeOf a = some (k, v)
          ∧ t = (s.takeTurn.withHost rest).hostWrite k v) := by
  cases hm : s.engineMoves with
  | true =>
    rw [step_engine s hm] at h
    injection h with h
    exact .inl ⟨rfl, h.symm⟩
  | false =>
    have hw : ∀ a rest, s.host = a :: rest → s.rst = false → t = s.takeTurn.performWrite a rest →
        (∃ rest, t = s.takeTurn.withHost rest)
          ∨ ∃ k v a rest, s.host = a :: rest ∧ s.writeOf a = some (k, v) ∧ t = (s.takeTurn.withHost rest).hostWrite k v := by
      rintro a rest hh _ rfl
      rcases performWrite_cases s a rest with ⟨k, v, h1, h2⟩ | h2
      · exact .inr ⟨k, v, a, rest, hh, h1, h2⟩
      · exact .inl ⟨rest, h2⟩
    simp only [step, State.advance, hm, Bool.false_eq_true, if_false, State.hostMoves, State.takeTurn_host,
      State.takeTurn_rst] at h
    cases hh : s.host with
    | nil =>
      simp only [hh] at h
      injection h with h
      exact .inr (.inl ⟨rfl, s.takeTurn.host, h.symm⟩)
    | cons a rest =>
      rw [hh] at hw
      have done : s.rst = false → t = s.takeTurn.performWrite a rest → _ := hw a rest rfl
      simp only [hh] at h
      cases a with
      | rst level =>
        injection h with h
        exact .inr (.inr (.inl ⟨rfl, level, rest, rfl, h.symm⟩))
      | read k =>
        simp only at h
        split at h
        · cases h
        · injection h with h
          exact .inr (.inr (.inr (.inl ⟨rfl, by simp_all, _, _, h.symm⟩)))
      | wait =>
        simp only at h
        split at h
        · cases h
        · injection h with h
          exact .inr (.inr (.inr (.inl ⟨rfl, by simp_all, _, _, h.symm⟩)))
      | write k v | clr | writeBack k back =>
        simp only at h
        split at h
        · cases h
        · rename_i hr
          injection h with h
          have hr : s.rst = false := by simpa using hr
          rcases done hr h.symm with hd | hd
          · exact .inr (.inl ⟨rfl, hd⟩)
          · exact .inr (.inr (.inr (.inr ⟨rfl, hr, hd⟩)))

end Sys2Proof.Machine
end

