-- ==== Sys2Proof/Laws/Run.lean ====
section
/-! SUPPORT. Each action of the host as a step, STATUS as a number, what `clr` and `writeBack` write, and a run taken apart. -/

namespace Sys2Proof.Machine

variable (s : State)

@[simp] theorem State.takeTurn_hostRead (k : Nat) : s.takeTurn.hostRead k = s.hostRead k := by
  unfold State.takeTurn
  split <;> rfl

@[simp] theorem State.takeTurn_statusWord : s.takeTurn.statusWord = s.statusWord := by
  unfold State.takeTurn
  split <;> rfl

/-- `HostRead(k)` as a step (20_memory R56). -/
theorem step_read {k : Nat} {rest : List HostAct} (hm : s.engineMoves = false) (hr : s.rst = false)
    (hh : s.host = .read k :: rest) : step s = .next (s.takeTurn.deliver (s.hostRead k) rest) := by
  simp [step, State.advance, hm, State.hostMoves, hh, hr]

/-- An action that presents a write is that `HostWrite(k, v)` as a step (20_memory R57). -/
theorem step_presents {a : HostAct} {k : Nat} {v : Word} {rest : List HostAct} (hm : s.engineMoves = false)
    (hr : s.rst = false) (hh : s.host = a :: rest) (hw : s.writeOf a = some (k, v)) :
    step s = .next ((s.takeTurn.withHost rest).hostWrite k v) := by
  have hp : s.takeTurn.performWrite a rest = (s.takeTurn.withHost rest).hostWrite k v :=
    State.performWrite_some _ rest (by rw [State.takeTurn_writeOf, hw])
  rw [← hp]
  cases a with
  | read k => cases hw
  | wait => cases hw
  | rst level => cases hw
  | write k v => simp [step, State.advance, hm, State.hostMoves, hh, hr]
  | clr => simp [step, State.advance, hm, State.hostMoves, hh, hr]
  | writeBack k back => simp [step, State.advance, hm, State.hostMoves, hh, hr]

/-- `HostWrite(k, v)` as a step (20_memory R57). -/
theorem step_write {k : Nat} {v : Word} {rest : List HostAct} (hm : s.engineMoves = false) (hr : s.rst = false)
    (hh : s.host = .write k v :: rest) : step s = .next ((s.takeTurn.withHost rest).hostWrite k v) :=
  step_presents s hm hr hh rfl

/-- `clr` as a step (30_encoding R81): the CTRL write of CLR and the current IE. -/
theorem step_clr {rest : List HostAct} (hm : s.engineMoves = false) (hr : s.rst = false) (hh : s.host = .clr :: rest) :
    step s = .next ((s.takeTurn.withHost rest).hostWrite 1 s.clrWord) :=
  step_presents s hm hr hh rfl

/-- One poll of `wait` as a step (30_encoding R81). -/
theorem step_wait {rest : List HostAct} (hm : s.engineMoves = false) (hr : s.rst = false)
    (hh : s.host = .wait :: rest) :
    step s = .next (s.takeTurn.deliver s.statusWord (if s.statusWord.getLsbD 0 then .wait :: rest else rest)) := by
  simp only [step, State.advance, hm, State.hostMoves, State.takeTurn_host, hh, State.takeTurn_rst, hr,
    Bool.false_eq_true, if_false, State.takeTurn_statusWord]

/-- Driving `rst` as a step (70 R160). -/
theorem step_rst {level : Bool} {rest : List HostAct} (hm : s.engineMoves = false) (hh : s.host = .rst level :: rest) :
    step s = .next ((s.takeTurn.withHost rest).driveRst level) := by
  simp [step, State.advance, hm, State.hostMoves, hh]

theorem engineMoves_notBusy (h : s.phase ≠ .busy) : s.engineMoves = false := by
  simp [State.engineMoves, h]

/-- STATUS is the sum of its fields at their places (10_state R39). -/
theorem State.statusWord_toNat :
    s.statusWord.toNat
      = (decide (s.phase = .busy)).toNat + (decide (s.phase = .done)).toNat * 2 + (decide (s.phase = .error)).toNat * 4
        + s.wrdrop.toNat * 8 + s.errcode.toNat * 16 + s.sx.toNat * 256 + s.sy.toNat * 512 + s.empty.toNat * 1024 := by
  have := (decide (s.phase = .busy)).toNat_lt
  have := (decide (s.phase = .done)).toNat_lt
  have := (decide (s.phase = .error)).toNat_lt
  have := s.wrdrop.toNat_lt
  have := s.errcode.isLt
  have := s.sx.toNat_lt
  have := s.sy.toNat_lt
  have := s.empty.toNat_lt
  simp only [State.statusWord, BitVec.toNat_ofNat]
  norm_num
  omega

/-- A run of `k + 1` steps is a step and a run of `k`. -/
theorem run_succ {s t : State} (h : step s = .next t) (k : Nat) :
    Sys2Proof.core.run (k + 1) s = Sys2Proof.core.run k t := by
  have h' : Sys2Proof.core.step s = .next t := h
  simp only [Host.Core.run, h']

/-- The bits `clr` writes to CTRL (10_state R38): SRST 0, CLR 1, IE as it is. -/
theorem State.clrWord_bits :
    s.clrWord.getLsbD 2 = false ∧ s.clrWord.getLsbD 1 = true ∧ s.clrWord.getLsbD 0 = s.ie := by
  unfold State.clrWord
  cases s.ie <;> decide

/-- Of the words returned last, the one `back` reads before the last. -/
theorem State.wordBack_append {old ws : List Word} {back : Nat} (h : s.returned = old ++ ws) (hb : back < ws.length) :
    s.wordBack back = ws[ws.length - 1 - back]? := by
  unfold State.wordBack
  rw [h, List.reverse_append, List.getElem?_append_left (by simpa using hb), List.getElem?_reverse hb]

/-- A run of `n + k` steps is a run of `n` and then one of `k`. -/
theorem run_add {k n : Nat} {s t : State} (h : Sys2Proof.core.run n s = .next t) :
    Sys2Proof.core.run (n + k) s = Sys2Proof.core.run k t := by
  induction n generalizing s with
  | zero =>
    cases h
    rw [Nat.zero_add]
  | succ n ih =>
    rw [Nat.succ_add]
    simp only [Host.Core.run] at h ⊢
    cases hs : Sys2Proof.core.step s with
    | next u => exact ih (by simpa only [hs] using h)
    | fault f => cases f
    | refused r => simp [hs] at h

end Sys2Proof.Machine
end

