-- ==== Sys2Proof/Tests/Slice0.lean ====
section
/-! SUPPORT. The model's own tests: the well-formedness smoke test, words written out from 30_encoding R74, the worked vectors of
95_test_vectors, and for every statement with hypotheses a concrete case that meets them. -/

namespace Sys2Proof.Tests

open Sys2Proof.Machine

/-! ### Helpers -/

/-- A MAU of `L` limbs in `phase` whose listed registers are loaded, everything else as after reset. -/
def mau (L : Nat) (phase : Phase) (regs : List (RegId × Nat)) : State :=
  { (State.resetAt L).writeRegs regs with phase := phase }

/-- The word `c` accepted and not yet completed. -/
def running (L : Nat) (regs : List (RegId × Nat)) (c : Word) : State :=
  { mau L .busy regs with cmd := c }

/-- The same with the host about to do `acts`. -/
def hosted (L : Nat) (phase : Phase) (regs : List (RegId × Nat)) (acts : List HostAct) : State :=
  { mau L phase regs with host := acts }

/-- The word accepted in IDLE on these registers and completed. -/
def completed (L : Nat) (regs : List (RegId × Nat)) (c : Word) : Host.Outcome State Fault Refusal :=
  ((mau L .idle regs).accept c).complete

/-- The registers asked for and STATUS, of a next state. -/
def seen (o : Host.Outcome State Fault Refusal) (rs : List RegId) : Option (List Nat × Word) :=
  match o with
  | .next t => some (rs.map t.readReg, t.statusWord)
  | .fault _ => none
  | .refused _ => none

/-- A property of the next state. -/
def ends (o : Host.Outcome State Fault Refusal) (p : State → Bool) : Bool :=
  match o with
  | .next t => p t
  | .fault _ => false
  | .refused _ => false

/-! ### WellFormed (30_encoding R78): each of the three comparisons, for both commands -/

theorem test_wellFormed_xgcd_rd_rx : Instr.wellFormed (.xgcd 2 2 4 0 1) = false := by decide
theorem test_wellFormed_xgcd_rd_ry : Instr.wellFormed (.xgcd 2 3 2 0 1) = false := by decide
theorem test_wellFormed_xgcd_rx_ry : Instr.wellFormed (.xgcd 2 3 3 0 1) = false := by decide
theorem test_wellFormed_xgcd_ok : Instr.wellFormed (.xgcd 0 1 2 0 0) = true := by decide
theorem test_wellFormed_lincon_rd_rx : Instr.wellFormed (.lincon 3 3 5 0 1 2) = false := by decide
theorem test_wellFormed_lincon_rd_ry : Instr.wellFormed (.lincon 3 4 3 0 1 2) = false := by decide
theorem test_wellFormed_lincon_rx_ry : Instr.wellFormed (.lincon 3 5 5 0 1 2) = false := by decide
theorem test_wellFormed_lincon_ok : Instr.wellFormed (.lincon 2 6 7 2 6 7) = true := by decide

/-! ### Decode: words written bit by bit from 30_encoding R70 and R74, fields RES CHK RY RX RM RB RA RD OP -/

/-- `modred x2, x0, x1`. -/
theorem test_decode_modred : decode 0b000_0_0000_0000_0001_0000_0000_0010_0001#32 = .ok (.modred 2 0 1) := by decide
/-- `modmul x3, x0, x1, x2`. -/
theorem test_decode_modmul : decode 0b000_0_0000_0000_0010_0001_0000_0011_0010#32 = .ok (.modmul 3 0 1 2) := by decide
/-- `modexp x3, x0, x1, x2`. -/
theorem test_decode_modexp : decode 0b000_0_0000_0000_0010_0001_0000_0011_0011#32 = .ok (.modexp 3 0 1 2 false) := by decide
/-- `modexp.chk x7, x7, x7, x7`. -/
theorem test_decode_modexp_chk : decode 0b000_1_0000_0000_0111_0111_0111_0111_0011#32 = .ok (.modexp 7 7 7 7 true) := by decide
/-- `xgcd x2, x3, x4, x0, x1`. -/
theorem test_decode_xgcd : decode 0b000_0_0100_0011_0000_0001_0000_0010_0100#32 = .ok (.xgcd 2 3 4 0 1) := by decide
/-- `modinv x2, x0, x1`. -/
theorem test_decode_modinv : decode 0b000_0_0000_0000_0001_0000_0000_0010_0101#32 = .ok (.modinv 2 0 1) := by decide
/-- `lincon x2, x6, x7, x3, x4, x5`: six different fields. -/
theorem test_decode_lincon : decode 0b000_0_0111_0110_0101_0100_0011_0010_0110#32 = .ok (.lincon 2 6 7 3 4 5) := by decide

/-- 95_test_vectors 2.7: illegal words, by reason. -/
theorem test_decode_illegal_op :
    decode 0 = .error .opcode ∧ decode 7 = .error .opcode ∧ decode 15 = .error .opcode := by decide
theorem test_decode_illegal_res :
    decode 0x20021033 = .error .reservedBits ∧ decode 0x40000001 = .error .reservedBits
      ∧ decode 0x80000001 = .error .reservedBits ∧ decode 0xFFFFFFFF = .error .reservedBits := by decide
theorem test_decode_illegal_chk :
    decode 0x10010021 = .error .chkBit ∧ decode 0x10021032 = .error .chkBit ∧ decode 0x14301024 = .error .chkBit
      ∧ decode 0x10010025 = .error .chkBit ∧ decode 0x15421036 = .error .chkBit := by decide
theorem test_decode_illegal_unused :
    decode 0x00011021 = .error .unusedField ∧ decode 0x00100021 = .error .unusedField
      ∧ decode 0x01021032 = .error .unusedField ∧ decode 0x00121033 = .error .unusedField
      ∧ decode 0x04311024 = .error .unusedField ∧ decode 0x00011025 = .error .unusedField := by decide
theorem test_decode_illegal_register :
    decode 0x00010821 = .error .registerNumber ∧ decode 0x00080021 = .error .registerNumber
      ∧ decode 0x000210F2 = .error .registerNumber ∧ decode 0x00028033 = .error .registerNumber
      ∧ decode 0x08301024 = .error .registerNumber ∧ decode 0x05821036 = .error .registerNumber := by decide
theorem test_decode_illegal_destinations :
    decode 0x04201024 = .error .sameDestination ∧ decode 0x00021034 = .error .unusedField
      ∧ decode 4 = .error .sameDestination ∧ decode 6 = .error .sameDestination
      ∧ decode 0x05321036 = .error .sameDestination := by decide

/-- The decoder's case test and the mask table agree on the table's own patterns (R74). -/
theorem test_mask_table :
    legal 1 = true ∧ legal 2 = true ∧ legal 3 = true ∧ legal 4 = false ∧ legal 5 = true ∧ legal 6 = false
      ∧ legal 0x10000003 = true ∧ legal 0x10000002 = false ∧ legal 0x02100004 = true := by decide

/-! ### Commands: 95_test_vectors sections 1 and 2 -/

/-- 2.1: destination = modulus register. -/
theorem test_modred_into_modulus : seen (completed 1 [(0, 1000), (1, 7)] 0x00010011) [0, 1] = some ([1000, 6], 2) := by decide
/-- 2.1: E_MODZERO, the destination unchanged. -/
theorem test_modred_zero : seen (completed 1 [(0, 9), (2, 85)] 0x00010021) [2] = some ([85], 0x24) := by decide
/-- 2.2: full-width product (1024 bits) reduced. -/
theorem test_modmul_full_width :
    seen (completed 16 [(0, 2 ^ 512 - 1), (1, 2 ^ 512 - 1), (2, 2 ^ 512 - 569)] 0x00021032) [3] = some ([322624], 2) := by
  decide +kernel
/-- 2.2: squaring in place. -/
theorem test_modmul_in_place : seen (completed 1 [(0, 65), (1, 3233)] 0x00010002) [0, 1] = some ([992, 3233], 2) := by decide
/-- S1d. -/
theorem test_modexp_chk : seen (completed 1 [(0, 65), (1, 17), (2, 3233)] 0x10021033) [3] = some ([2790], 2) := by
  decide +kernel
/-- S3a: E_RANGE. -/
theorem test_modexp_range : seen (completed 1 [(0, 3233), (1, 17), (2, 3233)] 0x10021033) [3] = some ([0], 0x34) := by
  decide +kernel
/-- 2.4, aliasing: sources overwritten after being read; SX. The word is that of R70 (log 20). -/
theorem test_xgcd_aliased : seen (completed 1 [(0, 240), (1, 46)] 0x02101004) [0, 1, 2] = some ([2, 9, 47], 0x102) := by
  decide +kernel
/-- 2.4: SY. -/
theorem test_xgcd_sy : seen (completed 1 [(0, 6), (1, 10)] 0x04301024) [2, 3, 4] = some ([2, 2, 1], 0x202) := by decide +kernel
/-- S1c. -/
theorem test_modinv : seen (completed 1 [(0, 17), (1, 3120)] 0x00010025) [2] = some ([2753], 2) := by decide +kernel
/-- S5: E_NOINV, the destination unchanged. -/
theorem test_modinv_noinv : seen (completed 1 [(0, 6), (1, 9), (2, 85)] 0x00010025) [2] = some ([85], 0x44) := by
  decide +kernel
/-- 2.6. -/
theorem test_lincon : seen (completed 1 [(0, 14), (1, 21), (2, 35)] 0x05421036) [3, 4, 5] = some ([4, 7, 5], 2) := by
  decide +kernel
/-- 2.6: EMPTY, three zeros written. -/
theorem test_lincon_empty :
    seen (completed 1 [(0, 6), (1, 3), (2, 10), (3, 1), (4, 1), (5, 1)] 0x05421036) [3, 4, 5] = some ([0, 0, 0], 0x402) := by
  decide +kernel
/-- 2.7: an illegal word completes with E_ILLCMD. -/
theorem test_illegal_word : seen (completed 1 [(0, 14), (3, 9)] 0x05321036) [0, 3] = some ([14, 9], 0x14) := by decide
/-- 60_exceptions R136: an illegal word before a zero modulus. -/
theorem test_priority_illegal : seen (completed 1 [] 0x10010021) [] = some ([], 0x14) := by decide

/-! ### The host interface: 95_test_vectors 2.8 -/

/-- A1. -/
theorem test_cap : (State.resetAt 16).hostRead 0 = 0x00080010 := by decide
/-- A3, A4. -/
theorem test_cap_write : ((State.resetAt 16).hostWrite 0 0xFFFFFFFF).hostRead 2 = 8 := by decide
/-- A5. -/
theorem test_reserved_reads :
    (State.resetAt 16).hostRead 17 = 0 ∧ (State.resetAt 16).hostRead 192 = 0 ∧ (State.resetAt 16).hostRead 1000000 = 0 := by
  decide
/-- A8: limb 2 of `x3`. -/
theorem test_limb_write :
    ((State.resetAt 16).hostWrite 114 0xDEADBEEF).readReg 3 = 0xDEADBEEF * 2 ^ 64
      ∧ ((State.resetAt 16).hostWrite 114 0xDEADBEEF).hostRead 114 = 0xDEADBEEF
      ∧ ((State.resetAt 16).hostWrite 114 0xDEADBEEF).hostRead 113 = 0 := by decide +kernel
/-- A9. -/
theorem test_ctrl_high_bits :
    ((State.resetAt 16).hostWrite 1 0xFFFFFFF9).hostRead 1 = 1 ∧ ((State.resetAt 16).hostWrite 1 0xFFFFFFF9).irq = false := by
  decide
/-- B2: an operand write in BUSY. -/
theorem test_busy_operand_write :
    ((mau 1 .busy [(0, 240)]).hostWrite 64 99).readReg 0 = 240 ∧ ((mau 1 .busy [(0, 240)]).hostWrite 64 99).hostRead 2 = 9 := by
  decide
/-- B5: CLR in BUSY. -/
theorem test_busy_clr : ((mau 1 .busy []).drop.hostWrite 1 2).hostRead 2 = 1 := by decide
/-- B11: SRST wins over CLR. -/
theorem test_srst_wins : ((mau 1 .done [(0, 5)]).hostWrite 1 6).readReg 0 = 0 := by decide
/-- P3: `run` in ERROR is dropped. -/
theorem test_error_run : ({ mau 1 .error [] with errcode := 4, cmd := 0x00010025 }.hostWrite 3 0x00010031).hostRead 2 = 0x4C := by
  decide
/-- P6: a partial operand write, `L = 2`. -/
theorem test_partial_write : ((mau 2 .idle [(0, 4294967301)]).hostWrite 64 3).readReg 0 = 4294967299 := by decide +kernel

/-! ### Steps -/

/-- The placed word is completed by the very next step (log 12). -/
theorem test_step_runs_placed_word :
    step (State.reset.withFetchWord 32 0x00010021) = ({ State.reset.accept 0x00010021 with turns := [] }).complete :=
  rfl
/-- In BUSY the schedule decides: the host's turn first, then the engine's (20_memory R61). -/
theorem test_turns :
    ends (step { hosted 1 .busy [] [.read 2] with turns := [.host], cmd := 1 }) (fun t => t.returned == [1]) = true
      ∧ ends (step { hosted 1 .busy [] [.read 2] with turns := [.engine], cmd := 1 }) (fun t => t.phase == .error) = true := by
  decide
/-- An access under reset has no step (70 R160). -/
theorem test_access_during_reset :
    step { hosted 1 .idle [] [.read 0] with rst := true } = .refused .accessDuringReset := rfl

/-! ### Witnesses: for each statement with hypotheses a case that meets them, one for each of its clauses -/

theorem witness_DecodeOfEncodeIsInstr :
    Instr.wellFormed (.lincon 7 6 5 7 7 7) = true ∧ Instr.wellFormed (.xgcd 0 1 7 7 7) = true := by decide
theorem witness_EncodeOfDecodeIsWord : decode 0x10077773 = .ok (.modexp 7 7 7 7 true) := by decide
/-- One word for each alternative of the list, at the least forbidden value of its field. -/
theorem witness_IllegalWordsAreErrors_fields :
    fieldOP 0x00010020 = 0 ∧ fieldOP 0x00010027 = 7 ∧ fieldRES 0x20010021 = 1 ∧ fieldCHK 0x10010021 = 1
      ∧ fieldOP 0x10010021 ≠ 3 ∧ fieldRD 0x00010081 = 8 ∧ fieldRA 0x00010821 = 8 ∧ fieldRB 0x00028032 = 8
      ∧ fieldRM 0x00080021 = 8 ∧ fieldRX 0x04801024 = 8 ∧ fieldRY 0x08301024 = 8 ∧ fieldRB 0x00011021 = 1
      ∧ fieldOP 0x00011021 = 1 ∧ fieldRB 0x00011025 = 1 ∧ fieldOP 0x00011025 = 5 ∧ fieldRM 0x04311024 = 1
      ∧ fieldOP 0x04311024 = 4 ∧ fieldRX 0x00100021 = 1 ∧ fieldRY 0x01021032 = 1 ∧ fieldOP 0x01021032 = 2 := by decide
theorem witness_IllegalWordsAreErrors_completion :
    decode 0 = .error .opcode ∧ State.reset.phase = .idle ∧ (mau 1 .done []).phase = .done := by decide

theorem witness_modulus_one : 1 ≤ 1 := by decide
theorem witness_ModpowIsPower : 1 ≤ 2 ∧ 2 ≤ 2 ∧ 1 ≤ 1 := by decide
theorem witness_XgcdProperties :
    (∀ j, j < 5 → (euclidRows 240 46 j).r ≠ 0) ∧ 0 < 46 ∧ 46 < 240 ∧ 0 < 7 ∧ 0 ≠ 1 := by decide
theorem witness_BezoutCoefficientBounds :
    0 < (xgcd 240 46).1 ∧ (∀ j, j < 5 → (euclidRows 240 46 j).r ≠ 0) ∧ (euclidRows 240 46 5).r = 0
      ∧ 1 ≤ 1 ∧ 2 ^ 32 - 1 < 2 ^ (32 * 1) ∧ 46 < 2 ^ (32 * 1) ∧ 0 < (xgcd (2 ^ 32 - 1) 46).1 := by decide +kernel
theorem witness_ModinvProperties :
    1 ≤ 11 ∧ modinv 3 11 = some 4 ∧ 1 < 2 ∧ 10 % 2 = 0 ∧ 2 ≤ 2 ∧ mulmod 3 4 11 = red 1 11 := by decide +kernel
theorem witness_LinconProperties :
    1 ≤ 10 ∧ lincon 6 4 10 = some (4, 2, 5) ∧ Nat.gcd 17 3120 = 1 ∧ 7 % 7 = 0 ∧ 3 % 7 ≠ 0 ∧ 14 % 7 = 0
      ∧ 10 < 2 ^ 4 := by decide +kernel

theorem witness_modulus_register : (mau 1 .busy [(2, 1)]).readReg 2 ≠ 0 := by decide
/-- With CHK the largest base that passes; without it any. -/
theorem witness_ModexpCompletes :
    (mau 1 .busy [(0, 3232), (2, 3233)]).readReg 2 ≠ 0
      ∧ (mau 1 .busy [(0, 3232), (2, 3233)]).readReg 0 < (mau 1 .busy [(0, 3232), (2, 3233)]).readReg 2 := by decide
theorem witness_distinctDests : distinctDests 0 1 2 = true ∧ distinctDests 7 6 5 = true := by decide
theorem witness_ModinvCompletes :
    (mau 1 .busy [(0, 17), (1, 3120)]).readReg 1 ≠ 0
      ∧ Nat.gcd ((mau 1 .busy [(0, 17), (1, 3120)]).readReg 0) ((mau 1 .busy [(0, 17), (1, 3120)]).readReg 1) = 1 := by
  decide +kernel
/-- Both branches of the statement on LINCON. -/
theorem witness_LinconCompletes :
    (mau 1 .busy [(0, 6), (1, 4), (2, 10)]).readReg 2 ≠ 0 ∧ Nat.gcd 6 10 ∣ 4 ∧ ¬ Nat.gcd 6 10 ∣ 3
      ∧ distinctDests 3 4 5 = true := by decide +kernel

theorem witness_CompletionCommitsOutcome :
    (running 1 [] 0).engineMoves = true
      ∧ outcomeOf 0 (fun _ => 0) = .error .illcmd
      ∧ outcomeOf 0x00010021 (fun _ => 7) = .ok (Commit.plain [(2, 0)]) := by decide +kernel
theorem witness_decodes :
    decode 0x10021033 = .ok (.modexp 3 0 1 2 true) ∧ decode 0x00010025 = .ok (.modinv 2 0 1)
      ∧ decode 0x04301024 = .ok (.xgcd 2 3 4 0 1) := by decide
/-- A state for each error a command can end in. -/
theorem witness_error_states :
    outcomeOf (running 1 [(0, 9)] 0x00010021).cmd (running 1 [(0, 9)] 0x00010021).readReg = .error .modzero
      ∧ outcomeOf (running 1 [(0, 7), (2, 7)] 0x10021033).cmd (running 1 [(0, 7), (2, 7)] 0x10021033).readReg = .error .range
      ∧ outcomeOf (running 1 [(0, 6), (1, 9)] 0x00010025).cmd (running 1 [(0, 6), (1, 9)] 0x00010025).readReg = .error .noinv := by
  decide +kernel
theorem witness_ChkOnlyChecksBase :
    (mau 1 .busy [(0, 6)]).readReg 2 = 0 ∧ (mau 1 .busy [(0, 6), (2, 7)]).readReg 0 < (mau 1 .busy [(0, 6), (2, 7)]).readReg 2
      ∧ (mau 1 .busy [(0, 7), (2, 7)]).readReg 2 ≠ 0
      ∧ (mau 1 .busy [(0, 7), (2, 7)]).readReg 2 ≤ (mau 1 .busy [(0, 7), (2, 7)]).readReg 0 := by decide
theorem witness_ErrorPriority :
    decode 0x10010021 = .error .chkBit ∧ State.reset.readReg 2 = 0 := by decide
theorem witness_CommandIsPure :
    (∀ r, State.reset.readReg r = (mau 1 .done []).readReg r)
      ∧ ends (exec (.modred 2 0 1) State.reset) (fun t => t.phase == .error) = true
      ∧ ends (exec (.modred 2 0 1) (mau 1 .done [])) (fun t => t.phase == .error) = true := by decide
theorem witness_CommandWritesOnlyDestinations :
    ends (exec (.modred 2 0 1) (mau 1 .busy [(1, 7)])) (fun t => t.phase == .done) = true
      ∧ (3 : RegId) ∉ destsOf (.modred 2 0 1)
      ∧ resultOf (.modred 2 0 1) State.reset.readReg = .error .modzero := by decide

theorem witness_phases :
    (mau 1 .idle []).phase = .idle ∧ (mau 1 .busy []).phase = .busy ∧ (mau 1 .done []).phase = .done
      ∧ (mau 1 .error []).phase = .error ∧ decode 0 = .error .opcode := by decide
theorem witness_CapWordFields :
    (State.resetAt 65535).limbs < 2 ^ 16 ∧ (State.resetAt 65535).hostRead 0 = 0x0008FFFF
      ∧ ends (step (hosted 1 .idle [] [.write 0 7])) (fun t => t.limbs == 1) = true := by decide
theorem witness_ctrl_bits :
    (4 : Word).getLsbD 2 = true ∧ (7 : Word).getLsbD 2 = true
      ∧ (2 : Word).getLsbD 2 = false ∧ (2 : Word).getLsbD 1 = true ∧ (3 : Word).getLsbD 1 = true
      ∧ (1 : Word).getLsbD 2 = false ∧ (1 : Word).getLsbD 1 = false
      ∧ (0xFFFFFFF8 : Word).getLsbD 2 = false ∧ (0xFFFFFFF8 : Word).getLsbD 0 = false
      ∧ ((mau 1 .idle []).drop.hostWrite 1 1).wrdrop = true := by decide
theorem witness_CmdHoldsLastAccepted :
    ends (step (hosted 1 .done [] [.write 3 5])) (fun t => t.cmd == 5) = true
      ∧ ends (step { hosted 1 .idle [] [.write 1 4] with cmd := 5 }) (fun t => t.cmd == 0) = true
      ∧ ends (step { hosted 1 .idle [] [.rst true] with cmd := 5 }) (fun t => t.cmd == 0) = true := by decide
theorem witness_IrqRisesAndFalls :
    ends (exec (.modred 2 0 1) { mau 1 .busy [(1, 7)] with ie := true }) (fun t => t.irq) = true
      ∧ (2 : Word).getLsbD 0 = false ∧ (mau 1 .done []).phase = .done ∧ (mau 1 .error []).phase = .error := by decide
/-- Word indices at both ends of each range, `L = 1`. -/
theorem witness_HostReadValues_indices :
    (4 ≤ 4 ∧ 4 ≤ 63) ∧ (4 ≤ 63 ∧ 63 ≤ 63) ∧ (64 ≤ 64 ∧ 64 < 64 + 8 * (mau 1 .idle []).limbs)
      ∧ (64 ≤ 71 ∧ 71 < 64 + 8 * (mau 1 .idle []).limbs) ∧ (71 - 64) / (mau 1 .idle []).limbs < 8
      ∧ 64 + 8 * (mau 1 .idle []).limbs ≤ 72 := by decide
theorem witness_HostReadValues_step :
    (hosted 1 .busy [] [.read 2]).rst = false
      ∧ ({ hosted 1 .busy [] [.read 2] with turns := [.host] }).engineMoves = false
      ∧ (hosted 1 .idle [] [.read 2]).engineMoves = false ∧ (hosted 1 .idle [] [.read 2]).host = [.read 2] := by decide
theorem witness_HostWriteDispatch : 0 ≠ 1 ∧ 0 ≠ 3 ∧ 2 ≠ 1 ∧ 2 ≠ 3 ∧ 4 ≠ 1 ∧ 4 ≠ 3 := by decide
/-- A host write that moves in BUSY by its turn, and one in ERROR. -/
theorem witness_HostWriteDispatch_step :
    ({ hosted 1 .busy [] [.write 1 4] with turns := [.host] }).engineMoves = false
      ∧ (hosted 1 .busy [] [.write 1 4]).rst = false ∧ (hosted 1 .error [] [.write 1 2]).engineMoves = false
      ∧ (hosted 1 .error [] [.write 1 2]).host = [.write 1 2] := by decide
theorem witness_OperandWriteReplacesLimb :
    15 < (mau 16 .error [(7, 1)]).limbs ∧ (mau 16 .error [(7, 1)]).phase ≠ .busy ∧ (mau 16 .busy []).phase = .busy
      ∧ 14 ≠ 15 ∧ (mau 16 .error [(7, 1)]).readReg 7 < 2 ^ (32 * (mau 16 .error [(7, 1)]).limbs) := by decide +kernel
theorem witness_RegisterIsSumOfLimbs :
    (mau 1 .idle [(7, 2 ^ 32 - 1)]).readReg 7 < 2 ^ (32 * (mau 1 .idle [(7, 2 ^ 32 - 1)]).limbs)
      ∧ 0 < (mau 1 .idle []).limbs ∧ 3 < 4 ∧ byteAddress 0 1 3 = byteAddress 0 1 3 := by decide +kernel
/-- A write off the list of dropped writes that leaves WRDROP set, for each kind of index. -/
theorem witness_DroppedWritesAreExactlyThese :
    ((mau 1 .idle []).drop.hostWrite 3 1).wrdrop = true ∧ ((mau 1 .busy []).drop.hostWrite 1 0).wrdrop = true
      ∧ ((mau 1 .error []).drop.hostWrite 71 5).wrdrop = true ∧ (mau 1 .busy []).phase = .busy
      ∧ 64 + 8 * (mau 1 .busy []).limbs ≤ 72 := by decide
theorem witness_WrdropIsSticky :
    ends (step { hosted 1 .busy [] [.write 1 2] with wrdrop := true, turns := [.host] }) (fun t => !t.wrdrop) = true
      ∧ ends (step { hosted 1 .idle [] [.write 1 4] with wrdrop := true }) (fun t => !t.wrdrop) = true
      ∧ ends (exec (.modred 2 0 1) State.reset) (fun t => !t.wrdrop) = true := by decide
theorem witness_AtReset : State.reset.AtReset := by decide
theorem witness_SoftResetEffect :
    (4 : Word).getLsbD 2 = true ∧ (0xFFFFFFFF : Word).getLsbD 2 = true
      ∧ (mau 1 .busy [(0, 5)]).limbs = (mau 1 .error [(0, 6)]).limbs
      ∧ (mau 1 .busy [(0, 5)]).rst = (mau 1 .error [(0, 6)]).rst
      ∧ (mau 1 .busy [(0, 5)]).host = (mau 1 .error [(0, 6)]).host
      ∧ (mau 1 .busy [(0, 5)]).turns = (mau 1 .error [(0, 6)]).turns
      ∧ (mau 1 .busy [(0, 5)]).returned = (mau 1 .error [(0, 6)]).returned := by decide
theorem witness_HardResetEffect :
    ({ hosted 1 .busy [] [.rst true] with turns := [.host] }).engineMoves = false
      ∧ ({ hosted 1 .idle [] [.rst false] with rst := true }).engineMoves = false
      ∧ ({ hosted 1 .idle [] [.rst false] with rst := true }).rst = true
      ∧ ({ hosted 1 .idle [] [.read 0] with rst := true }).host = [.read 0] ∧ ∀ l, HostAct.read 0 ≠ .rst l := by decide

theorem witness_StepRunsDecoded :
    (mau 1 .busy []).phase = .busy ∧ (mau 1 .busy []).rst = false ∧ (mau 1 .busy []).host = []
      ∧ ({ hosted 1 .busy [] [.read 0] with turns := [.engine] }).turns.head? ≠ some .host
      ∧ (hosted 1 .busy [] [.read 0]).turns.head? ≠ some .host
      ∧ decode (running 1 [] 1).cmd = .ok (.modred 0 0 0) := by decide
theorem witness_IdleIsQuiescent :
    State.reset.phase ≠ .busy ∧ State.reset.host = [] ∧ (mau 1 .error []).phase ≠ .busy ∧ (mau 1 .error []).host = [] := by
  decide
/-- One step for each kind of transition. -/
theorem witness_PhaseTransitions :
    ends (step (hosted 1 .done [] [.write 3 1])) (fun t => t.phase == .busy) = true
      ∧ ends (step (mau 1 .busy [])) (fun t => t.phase == .error) = true
      ∧ ends (step (hosted 1 .error [] [.write 1 2])) (fun t => t.phase == .idle) = true
      ∧ ends (step { hosted 1 .busy [] [.write 1 4] with turns := [.host] }) (fun t => t.phase == .idle) = true := by decide
theorem witness_ErrorsDoNotNest :
    (hosted 1 .error [] [.write 3 1]).phase = .error
      ∧ ends (step { hosted 1 .error [] [.write 3 1] with errcode := 4 }) (fun t => t.errcode == 4) = true
      ∧ ends (step { hosted 1 .error [] [.write 1 2] with errcode := 4 }) (fun t => t.errcode == 0) = true := by decide
theorem witness_RegisterWriters :
    ends (step (hosted 1 .error [] [.write 71 5])) (fun t => t.readReg 7 == 5) = true
      ∧ ends (step (running 1 [(0, 9), (1, 7)] 0x00010021)) (fun t => t.readReg 2 == 2) = true
      ∧ ends (step (hosted 1 .idle [(7, 5)] [.rst true])) (fun t => t.readReg 7 == 0) = true := by decide
theorem witness_FlagSetters :
    ends (step (running 1 [(0, 240), (1, 46)] 0x04301024)) (fun t => t.sx) = true
      ∧ ends (step (running 1 [(0, 46), (1, 240)] 0x04301024)) (fun t => t.sy) = true
      ∧ ends (step (running 1 [(0, 6), (1, 3), (2, 10)] 0x05421036)) (fun t => t.empty) = true
      ∧ ends (step { mau 1 .busy [] with sx := true }) (fun t => !t.sx) = true
      ∧ (mau 1 .busy []).engineMoves = true ∧ outcomeOf 0 (fun _ => 0) = .error .illcmd := by decide +kernel
theorem witness_limbs_range : 1 ≤ 1 ∧ 65535 < 2 ^ 16 := by decide
theorem witness_StepKeepsInvariant_host : (hosted 1 .idle [(0, 2 ^ 32 - 1)] [.write 71 5]).Inv := by decide +kernel
theorem witness_StepKeepsInvariant_engine : (running 1 [(0, 240), (1, 46)] 0x04301024).Inv := by decide +kernel
theorem witness_StepKeepsInvariant_steps :
    ends (step (hosted 1 .idle [(0, 2 ^ 32 - 1)] [.write 71 5])) (fun t => t.readReg 7 == 5) = true
      ∧ ends (step (running 1 [(0, 240), (1, 46)] 0x04301024)) (fun t => t.readReg 3 == 9) = true := by decide +kernel
theorem witness_AcceptedCommandCompletes :
    ({ hosted 1 .busy [] [.write 64 99, .wait] with turns := [.host, .host, .engine] }).phase = .busy
      ∧ (hosted 1 .busy [] [.write 64 99, .wait]).rst = false
      ∧ noReset (hosted 1 .busy [] [.write 64 99, .write 1 3, .wait]).host = true
      ∧ outcomeOf 0 (fun _ => 0) = .error .illcmd
      ∧ outcomeOf 0x00010021 (fun _ => 7) = .ok (Commit.plain [(2, 0)]) := by decide +kernel
theorem witness_LdLoadsRegister :
    (hosted 2 .error [] (scriptLd 2 0 4294967301 ++ [.wait])).phase ≠ .busy
      ∧ (hosted 2 .error [] (scriptLd 2 0 4294967301 ++ [.wait])).rst = false
      ∧ (hosted 2 .error [] (scriptLd 2 0 4294967301 ++ [.wait])).readReg 0 < 2 ^ (32 * 2) ∧ 4294967301 < 2 ^ (32 * 2)
      ∧ scriptLd 2 0 4294967301 = [.write 64 5, .write 65 1] := by decide +kernel
theorem witness_RdReturnsRegister :
    (hosted 2 .done [(1, 1000)] (scriptRd 2 1 ++ [])).phase ≠ .busy
      ∧ (hosted 2 .done [(1, 1000)] (scriptRd 2 1 ++ [])).rst = false
      ∧ (hosted 2 .done [(1, 1000)] (scriptRd 2 1 ++ [])).readReg 1 < 2 ^ (32 * 2)
      ∧ scriptRd 2 1 = [.read 66, .read 67] := by decide +kernel
theorem witness_RunThenWaitDelivers :
    Instr.wellFormed (.xgcd 2 3 4 0 1) = true
      ∧ (hosted 1 .idle [(0, 240), (1, 46)] (scriptRun (.xgcd 2 3 4 0 1) ++ scriptWait ++ [])).phase = .idle
      ∧ (hosted 1 .idle [(0, 240), (1, 46)] (scriptRun (.xgcd 2 3 4 0 1) ++ scriptWait ++ [])).rst = false
      ∧ scriptRun (.xgcd 2 3 4 0 1) = [.write 3 0x04301024]
      ∧ resultOf (.modred 2 0 1) (fun _ => 0) = .error .modzero
      ∧ resultOf (.modred 2 0 1) (fun _ => 7) = .ok (Commit.plain [(2, 0)]) := by decide +kernel
theorem test_scripts :
    scriptClr = [.clr] ∧ scriptSrst = [.write 1 4] ∧ scriptIen = [.write 1 1] ∧ scriptIdis = [.write 1 0]
      ∧ scriptMov 2 1 0 = [.read 64, .read 65, .writeBack 66 1, .writeBack 67 0] := by decide +kernel
/-- 30_encoding R81: `clr` writes 2 + IE with the IE that is current. -/
theorem test_clr_keeps_ie :
    State.writeOf { mau 1 .done [] with ie := true } .clr = some (1, 3)
      ∧ State.writeOf (mau 1 .done []) .clr = some (1, 2)
      ∧ ends (step { hosted 1 .done [] [.clr] with ie := true }) (fun t => t.phase == .idle && t.ie) = true := by decide
/-- 30_encoding R81: the load of `mov` writes the words its `rd` returned, limb 0 first; a word never read is not written. -/
theorem test_mov_writes_back :
    ends (step { hosted 2 .idle [] [.writeBack 66 1] with returned := [9, 5, 1] }) (fun t => t.readReg 1 == 5) = true
      ∧ ends (step { hosted 2 .idle [] [.writeBack 67 0] with returned := [9, 5, 1] }) (fun t => t.readReg 1 == 2 ^ 32) = true
      ∧ ends (step (hosted 2 .idle [(1, 7)] [.writeBack 67 0])) (fun t => t.readReg 1 == 7) = true := by decide +kernel
theorem witness_ClrAndMovScripts :
    ({ hosted 1 .busy [] (scriptClr ++ scriptWait) with turns := [.host] }).engineMoves = false
      ∧ (hosted 1 .done [] scriptClr).engineMoves = false ∧ (hosted 1 .done [] scriptClr).rst = false
      ∧ (hosted 2 .error [(0, 2 ^ 64 - 1)] (scriptMov 2 1 0 ++ [])).phase ≠ .busy
      ∧ (hosted 2 .error [(0, 2 ^ 64 - 1)] (scriptMov 2 1 0 ++ [])).rst = false
      ∧ (hosted 2 .error [(0, 2 ^ 64 - 1)] (scriptMov 2 1 0 ++ [])).readReg 0 < 2 ^ (32 * 2)
      ∧ (hosted 2 .error [(0, 2 ^ 64 - 1)] (scriptMov 2 1 0 ++ [])).readReg 1 < 2 ^ (32 * 2) := by decide +kernel

end Sys2Proof.Tests
end

section
/-! Proofs of the statements on 00_scope: the helper functions are exact (R13 to R15), a command is a function of the register file (R9), and
it writes only its destinations (R16). -/

namespace Sys2Proof.Machine

/-! ### The helper functions -/

theorem red_lt (v : Nat) {m : Nat} (hm : 1 ≤ m) : red v m < m :=
  Nat.mod_lt v hm

/-- `v` and its residue differ by a multiple of the modulus (00_scope R13). -/
theorem eq_div_mul_add_red (v m : Nat) : v = v / m * m + red v m :=
  (Nat.div_add_mod' v m).symm

/-- `bitlen` is the least `k` with `n < 2^k` (00_scope R15). -/
theorem bitlen_le_iff (n k : Nat) : bitlen n ≤ k ↔ n < 2 ^ k := by
  by_cases hn : n = 0
  · simp [bitlen, hn]
  · rw [bitlen, if_neg hn, Nat.succ_le_iff, Nat.log2_lt hn]

/-- Settles O7: residue and quotient by division with remainder, for `mulmod` on the exact product. -/
theorem helperFunctionsAreExact : Obligations.HelperFunctionsAreExact :=
  ⟨fun v m hm => ⟨red_lt v hm, v / m, eq_div_mul_add_red v m⟩,
    fun a b m hm => ⟨red_lt (a * b) hm, a * b / m, eq_div_mul_add_red (a * b) m⟩,
    bitlen_le_iff⟩

/-! ### Commands: what a commit depends on, and what it leaves alone -/

/-- The one next state of a command (60_exceptions R131). -/
theorem exec_next_iff {i : Instr} {s t : State} : exec i s = .next t ↔ t = s.commit (resultOf i s.readReg) := by
  rw [exec_eq_commit, Host.Outcome.next.injEq, eq_comm]

/-- The same writes on register files that read alike give register files that read alike. -/
theorem State.writeRegs_readReg_congr (l : List (RegId × Nat)) {s s' : State} (h : ∀ r, s.readReg r = s'.readReg r)
    (r : RegId) : (s.writeRegs l).readReg r = (s'.writeRegs l).readReg r := by
  induction l generalizing s s' with
  | nil => exact h r
  | cons p l ih => exact ih fun q => by rw [State.writeReg_readReg, State.writeReg_readReg, h q]

/-- The register file after a commit depends on the outcome and the register file before. -/
theorem commit_readReg_congr (o : Except MauError Commit) {s s' : State} (h : ∀ r, s.readReg r = s'.readReg r)
    (r : RegId) : (s.commit o).readReg r = (s'.commit o).readReg r := by
  cases o with
  | error e => exact h r
  | ok c => exact State.writeRegs_readReg_congr c.writes h r

/-- PHASE and the flags after a commit depend on the outcome alone, and so does the code of an error. ERRCODE is not among them
in DONE, where a commit leaves it as it was. -/
theorem commit_status_congr (o : Except MauError Commit) (s s' : State) :
    (s.commit o).phase = (s'.commit o).phase ∧ (s.commit o).sx = (s'.commit o).sx ∧ (s.commit o).sy = (s'.commit o).sy
      ∧ (s.commit o).empty = (s'.commit o).empty
      ∧ ((s.commit o).phase = .error → (s.commit o).errcode = (s'.commit o).errcode) := by
  cases o with
  | error e => exact ⟨rfl, rfl, rfl, rfl, fun _ => rfl⟩
  | ok c => exact ⟨rfl, rfl, rfl, rfl, nofun⟩

/-- The commit of a command's result leaves every register but its destinations (10_state R22). -/
theorem commit_resultOf_readReg_notMem (s : State) (i : Instr) (x : RegId → Nat) {r : RegId} (hr : r ∉ destsOf i) :
    (s.commit (resultOf i x)).readReg r = s.readReg r := by
  cases h : resultOf i x with
  | error e => rfl
  | ok c =>
    rw [← (resultOf_writes h).1] at hr
    exact State.writeRegs_readReg_notMem c.writes s r hr

/-- Settles O28: equal register files give equal results, and what a commit leaves in the compared fields depends on the result and
the register file only. -/
theorem commandIsPure : Obligations.CommandIsPure := by
  intro i s s' t t' hreg ht ht'
  obtain rfl := exec_next_iff.1 ht
  obtain rfl := exec_next_iff.1 ht'
  rw [show s'.readReg = s.readReg from (funext hreg).symm]
  exact ⟨commit_readReg_congr _ hreg, commit_status_congr _ s s'⟩

/-- Settles O29: a command is the commit of its result, which writes the destinations and, when it is an error, is `raise`. -/
theorem commandWritesOnlyDestinations : Obligations.CommandWritesOnlyDestinations := by
  refine ⟨fun i s t ht => ?_, fun i s e he => ⟨s.raise e, ?_, raise_endsError s e⟩⟩
  · obtain rfl := exec_next_iff.1 ht
    exact ⟨fun r hr => commit_resultOf_readReg_notMem s i _ hr, commit_sameRest s _⟩
  · rw [exec_eq_commit, he, commit_error]

end Sys2Proof.Machine
end

section
/-! Facts for the statements on 10_state: register writes as one update of the register file, acknowledge field by field, and what a step does
to the unit with the event that makes it (10_state R22, R31, R34, R35, R40). -/

namespace Sys2Proof.Machine

/-! ### Register writes as one update of the register file -/

/-- The register file after a command's writes, in order (60_exceptions R131). -/
def writeAll (x : Vector Nat 8) : List (RegId × Nat) → Vector Nat 8
  | [] => x
  | (i, v) :: rest => writeAll (x.set i v) rest

/-- The writes of a command change the register file and nothing else. -/
theorem State.writeRegs_eq (s : State) (l : List (RegId × Nat)) : s.writeRegs l = { s with x := writeAll s.x l } := by
  induction l generalizing s with
  | nil => rfl
  | cons p l ih => exact ih (s.writeReg p.1 p.2)

/-- Writes below a bound keep every register below it. -/
theorem State.writeRegs_readReg_lt {B : Nat} (s : State) (l : List (RegId × Nat)) (hs : ∀ r, s.readReg r < B)
    (hl : ∀ p ∈ l, p.2 < B) (r : RegId) : (s.writeRegs l).readReg r < B := by
  induction l generalizing s with
  | nil => exact hs r
  | cons p l ih =>
    refine ih (s.writeReg p.1 p.2) (fun q => ?_) fun q hq => hl q (List.mem_cons_of_mem p hq)
    rw [State.writeReg_readReg]
    split
    · exact hl p List.mem_cons_self
    · exact hs q

/-! ### What no commit changes (60_exceptions R131) -/

section
variable (s : State) (o : Except MauError Commit)

@[simp] theorem State.commit_limbs : (s.commit o).limbs = s.limbs := by cases o <;> simp [State.commit]
@[simp] theorem State.commit_cmd : (s.commit o).cmd = s.cmd := by cases o <;> simp [State.commit]
@[simp] theorem State.commit_wrdrop : (s.commit o).wrdrop = s.wrdrop := by cases o <;> simp [State.commit]
@[simp] theorem State.commit_ie : (s.commit o).ie = s.ie := by cases o <;> simp [State.commit]
@[simp] theorem State.commit_rst : (s.commit o).rst = s.rst := by cases o <;> simp [State.commit]

end

/-! ### Acknowledge (60_exceptions R141) -/

section
variable (s : State)

@[simp] theorem State.acknowledge_limbs : s.acknowledge.limbs = s.limbs := by unfold State.acknowledge; split <;> rfl
@[simp] theorem State.acknowledge_cmd : s.acknowledge.cmd = s.cmd := by unfold State.acknowledge; split <;> rfl
@[simp] theorem State.acknowledge_wrdrop : s.acknowledge.wrdrop = false := by unfold State.acknowledge; split <;> rfl
@[simp] theorem State.acknowledge_ie : s.acknowledge.ie = s.ie := by unfold State.acknowledge; split <;> rfl
@[simp] theorem State.acknowledge_rst : s.acknowledge.rst = s.rst := by unfold State.acknowledge; split <;> rfl
@[simp] theorem State.acknowledge_readReg (r : RegId) : s.acknowledge.readReg r = s.readReg r := by
  unfold State.acknowledge; split <;> rfl

/-- Acknowledge ends DONE and ERROR, and in IDLE and BUSY clears only WRDROP. -/
theorem State.acknowledge_cases :
    ((s.phase = .done ∨ s.phase = .error) ∧ s.acknowledge
        = { s with wrdrop := false, phase := .idle, errcode := 0, sx := false, sy := false, empty := false })
      ∨ ((s.phase = .idle ∨ s.phase = .busy) ∧ s.acknowledge = { s with wrdrop := false }) := by
  have hp : (s.phase = .done ∨ s.phase = .error) ∨ (s.phase = .idle ∨ s.phase = .busy) := by
    cases s.phase <;> simp
  exact hp.imp (fun h => ⟨h, s.acknowledge_ends h⟩) fun h => ⟨h, s.acknowledge_keeps h⟩

end

/-! ### The reset input (70 R160) -/

theorem State.driveRst_resets (s : State) {level : Bool} (h : level = true ∨ s.rst = true) :
    s.driveRst level = { s.resetAction with rst := level } := by
  simp [State.driveRst, h]

theorem State.driveRst_keeps (s : State) {level : Bool} (h : ¬(level = true ∨ s.rst = true)) : s.driveRst level = s := by
  simp [State.driveRst, h]

/-! ### The agents around the unit -/

/-- The same unit, with other things for the host to do, other turns and other words returned (log 2, 3, 4). -/
def State.withAgents (s : State) (host : List HostAct) (turns : List Agent) (returned : List Word) : State :=
  { s with host := host, turns := turns, returned := returned }

theorem State.takeTurn_eq_withAgents (s : State) :
    s.takeTurn = s.withAgents s.host s.takeTurn.turns s.returned := by
  unfold State.takeTurn
  split <;> rfl

/-- A commit neither reads nor writes what lies outside the unit. -/
theorem State.commit_withAgents (s : State) (host : List HostAct) (turns : List Agent) (returned : List Word)
    (o : Except MauError Commit) :
    (s.withAgents host turns returned).commit o = (s.commit o).withAgents host turns returned := by
  cases o with
  | error e => rfl
  | ok c =>
    simp only [State.commit, State.retire, State.writeRegs_eq]
    rfl

theorem State.acknowledge_withAgents (s : State) (host : List HostAct) (turns : List Agent) (returned : List Word) :
    (s.withAgents host turns returned).acknowledge = s.acknowledge.withAgents host turns returned := by
  cases h : s.phase with
  | done | error => simp [State.acknowledge, State.withAgents, h]
  | idle | busy => simp [State.acknowledge, State.withAgents, h]

/-! ### What a step does to the unit, and the event that makes it -/

/-- A host write is performed only while the reset input is released (70 R160). -/
theorem HostWrites.released {s : State} {k : Nat} {v : Word} (h : HostWrites s k v) : s.rst = false := h.2.1

/-- `UnitStep s u`: an event of a step from `s` takes the unit of `s` to that of `u`. -/
inductive UnitStep (s : State) : State → Prop
  /-- The engine completes the accepted command (60_exceptions R131). -/
  | complete (hm : s.engineMoves = true) : UnitStep s (s.commit (outcomeOf s.cmd s.readReg))
  /-- A read, a poll, a release of a released reset input, or nothing at all. -/
  | quiet : UnitStep s s
  /-- A host write is dropped (20_memory R59). -/
  | drop {k : Nat} {v : Word} (hw : HostWrites s k v) : UnitStep s s.drop
  /-- A host write to one limb (20_memory R58). -/
  | limb {i : RegId} {j : Nat} {v : Word} (hp : s.phase ≠ .busy) (hj : j < s.limbs)
      (hw : HostWrites s (limbIndex s.limbs i j) v) : UnitStep s (s.writeReg i (setLimb (s.readReg i) j v))
  /-- A host write to CMD is accepted (10_state R33). -/
  | accept {v : Word} (hp : s.phase = .idle ∨ s.phase = .done) (hw : HostWrites s 3 v) : UnitStep s (s.accept v)
  /-- A CTRL write with CLR = 1 and SRST = 0 (60_exceptions R141). -/
  | acknowledge {v : Word} (hw : HostWrites s 1 v) (h2 : v.getLsbD 2 = false) (h1 : v.getLsbD 1 = true) :
      UnitStep s { s with ie := v.getLsbD 0 }.acknowledge
  /-- A CTRL write with neither (10_state R38). -/
  | enable {v : Word} (hw : HostWrites s 1 v) : UnitStep s { s with ie := v.getLsbD 0 }
  /-- Soft or hard reset (70 R160, R161). -/
  | reset (level : Bool) (hr : StepResets s) : UnitStep s { s.resetAction with rst := level }

/-- A host write in a step is one of the events, on the unit as it was before the turn was taken. -/
theorem unitStep_of_hostWrite {s : State} {k : Nat} {v : Word} (hw : HostWrites s k v) (rest : List HostAct) :
    ∃ u host turns returned, UnitStep s u
      ∧ (s.takeTurn.withHost rest).hostWrite k v = u.withAgents host turns returned := by
  have he : s.takeTurn.withHost rest = s.withAgents rest s.takeTurn.turns s.returned := by
    rw [s.takeTurn_eq_withAgents]
    rfl
  rw [he]
  rcases hostWrite_cases (s.withAgents rest s.takeTurn.turns s.returned) k v with
    h | ⟨i, j, hj, rfl, hp, h⟩ | ⟨rfl, hp, h⟩ | ⟨rfl, h2, h⟩ | ⟨rfl, h2, h1, h⟩ | ⟨rfl, h2, h1, h⟩
  · exact ⟨_, _, _, _, .drop hw, h⟩
  · exact ⟨_, _, _, _, .limb hp hj hw, h⟩
  · exact ⟨_, _, _, _, .accept hp hw, h⟩
  · exact ⟨_, _, _, _, .reset s.rst (.inl ⟨v, hw, h2⟩), h⟩
  · exact ⟨_, _, _, _, .acknowledge hw h2 h1, h.trans (State.acknowledge_withAgents { s with ie := v.getLsbD 0 } _ _ _)⟩
  · exact ⟨_, _, _, _, .enable hw, h⟩

/-- A step is one of the events on the unit; what lies outside the unit moves on beside it. -/
theorem unitStep_of_step {s t : State} (h : step s = .next t) :
    ∃ u host turns returned, UnitStep s u ∧ t = u.withAgents host turns returned := by
  have hturn := s.takeTurn_eq_withAgents
  rcases step_cases s h with
    ⟨hm, rfl⟩ | ⟨_, rest, rfl⟩ | ⟨hm, level, rest, hh, rfl⟩ | ⟨_, _, v, rest, rfl⟩ | ⟨hm, hr, k, v, a, rest, hh, hw, rfl⟩
  · rw [hturn, State.commit_withAgents]
    exact ⟨_, _, _, _, .complete hm, rfl⟩
  · rw [hturn]
    exact ⟨_, _, _, _, .quiet, rfl⟩
  · rw [hturn]
    by_cases hl : level = true ∨ s.rst = true
    · exact ⟨_, _, _, _, .reset level (.inr ⟨level, ⟨hm, rest, hh⟩, hl⟩), State.driveRst_resets _ hl⟩
    · exact ⟨_, _, _, _, .quiet, State.driveRst_keeps _ hl⟩
  · rw [hturn]
    exact ⟨_, _, _, _, .quiet, rfl⟩
  · exact unitStep_of_hostWrite ⟨hm, hr, a, rest, hh, hw⟩ rest

end Sys2Proof.Machine
end

section
/-! What the results of commands are, and their size and flags (42 R113, 43 R122, R126): what the invariant needs of each command. -/

namespace Sys2Proof.Machine

/-! ### The Euclid result -/

/-- `xgcd` returns the old values of the first row with remainder 0 (42 R110). -/
theorem xgcd_eq_row (a b : Nat) :
    ∃ k, (euclidRows a b k).r = 0 ∧ (∀ j, j < k → (euclidRows a b j).r ≠ 0)
      ∧ xgcd a b = ((euclidRows a b k).oldR, (euclidRows a b k).oldS, (euclidRows a b k).oldT) := by
  obtain ⟨k, _, h0, hne, heq⟩ := xgcdLoop_stops (b + 1) (EuclidRow.start a b) (Nat.lt_succ_self b)
  simp only [← euclidRows_eq_passes] at h0 hne heq
  exact ⟨k, h0, hne, heq⟩

/-- The first component is the gcd (42 R112). -/
theorem xgcd_fst (a b : Nat) : (xgcd a b).1 = Nat.gcd a b := by
  obtain ⟨k, h0, _, heq⟩ := xgcd_eq_row a b
  rw [heq, ← (euclidRows_good a b k).gcd, h0, Nat.gcd_zero_right]

/-- The coefficients never have the same sign (42 R113). -/
theorem xgcd_signs (a b : Nat) : (xgcd a b).2.1 * (xgcd a b).2.2 ≤ 0 := by
  obtain ⟨k, _, _, heq⟩ := xgcd_eq_row a b
  rw [heq]
  exact (euclidRows_good a b k).sign_old

/-- In a row whose old remainder is not 0 the current coefficients are bounded by the operands. -/
theorem EuclidRow.Good.coefficients_le {a b : Nat} {e : EuclidRow} (g : e.Good a b) (h : 0 < e.oldR) :
    e.s.natAbs ≤ b ∧ e.t.natAbs ≤ a := by
  have hs := g.size_s
  have ht := g.size_t
  have h1 : e.s.natAbs ≤ e.oldR * e.s.natAbs := Nat.le_mul_of_pos_left _ h
  have h2 : e.t.natAbs ≤ e.oldR * e.t.natAbs := Nat.le_mul_of_pos_left _ h
  omega

/-- The coefficients returned are bounded by the operands, or by 1 where an operand is 0 (42 R113). -/
theorem xgcd_coefficients_le (a b : Nat) : (xgcd a b).2.1.natAbs ≤ max b 1 ∧ (xgcd a b).2.2.natAbs ≤ max a 1 := by
  obtain ⟨k, _, hne, heq⟩ := xgcd_eq_row a b
  rw [heq]
  match k with
  | 0 => simp [euclidRows, EuclidRow.start]
  | 1 => simp [euclidRows, EuclidRow.start, EuclidRow.pass]
  | k + 2 =>
    have hpos : 0 < (euclidRows a b (k + 1)).oldR := Nat.pos_of_ne_zero (hne k (by omega))
    obtain ⟨hs, ht⟩ := (euclidRows_good a b (k + 1)).coefficients_le hpos
    exact ⟨hs.trans (le_max_left b 1), ht.trans (le_max_left a 1)⟩

theorem gcd_lt_of_lt {a b B : Nat} (ha : a < B) (hb : b < B) : Nat.gcd a b < B := by
  rcases Nat.eq_zero_or_pos a with rfl | h
  · simpa using hb
  · exact (Nat.gcd_le_left b h).trans_lt ha

/-! ### The results below the modulus -/

/-- `modpow` is below its modulus (41 R102). -/
theorem modpow_lt (b e : Nat) {m : Nat} (hm : m ≠ 0) : modpow b e m < m := by
  rw [modpow, modpowScan_eq _ _ _ _ _ (by simp [red])]
  exact Nat.mod_lt _ (Nat.pos_of_ne_zero hm)

/-- An inverse is below its modulus (43 R120). -/
theorem modinv_lt {a m v : Nat} (hm : m ≠ 0) (h : modinv a m = some v) : v < m := by
  simp only [modinv] at h
  split at h
  · cases h
  · injection h with h
    rw [← h]
    exact (Int.toNat_lt (Int.emod_nonneg _ (by omega))).2 (Int.emod_lt_of_pos _ (by omega))

theorem gcd_red (a m : Nat) : Nat.gcd (red a m) m = Nat.gcd a m := by
  rw [red, ← Nat.gcd_rec, Nat.gcd_comm]

/-- There is no solution exactly where the gcd does not divide (43 R124). -/
theorem lincon_eq_none_iff (a b m : Nat) : lincon a b m = none ↔ ¬ Nat.gcd a m ∣ b := by
  have hg : (xgcd (red a m) m).1 = Nat.gcd a m := by rw [xgcd_fst, gcd_red]
  have hd : red b m % Nat.gcd a m = 0 ↔ Nat.gcd a m ∣ b := by
    rw [← Nat.dvd_iff_mod_eq_zero, red, Nat.dvd_mod_iff (Nat.gcd_dvd_right a m)]
  simp only [lincon, hg]
  rw [← hd]
  split <;> simp_all

/-- The least solution, the number of solutions and the spacing do not exceed the modulus (43 R126). -/
theorem lincon_le {a b m z n p : Nat} (hm : m ≠ 0) (h : lincon a b m = some (z, n, p)) : z ≤ m ∧ n ≤ m ∧ p ≤ m := by
  have hg : (xgcd (red a m) m).1 = Nat.gcd a m := by rw [xgcd_fst, gcd_red]
  have hgm : Nat.gcd a m ≤ m := Nat.gcd_le_right a (Nat.pos_of_ne_zero hm)
  have hp : 0 < m / Nat.gcd a m := Nat.div_pos hgm (Nat.gcd_pos_of_pos_right a (Nat.pos_of_ne_zero hm))
  have hpm : m / Nat.gcd a m ≤ m := Nat.div_le_self _ _
  simp only [lincon, hg] at h
  split at h
  · cases h
  · simp only [Option.some.injEq, Prod.mk.injEq] at h
    obtain ⟨rfl, rfl, rfl⟩ := h
    exact ⟨(Nat.mod_lt _ hp).le.trans hpm, hgm, hpm⟩

/-! ### The commit of each command that ends without error -/

theorem modredResult_ok {rd : RegId} {a m : Nat} {c : Commit} (h : modredResult rd a m = .ok c) :
    m ≠ 0 ∧ c = Commit.plain [(rd, red a m)] := by
  unfold modredResult at h
  split at h
  · cases h
  · cases h; exact ⟨‹_›, rfl⟩

theorem modmulResult_ok {rd : RegId} {a b m : Nat} {c : Commit} (h : modmulResult rd a b m = .ok c) :
    m ≠ 0 ∧ c = Commit.plain [(rd, mulmod a b m)] := by
  unfold modmulResult at h
  split at h
  · cases h
  · cases h; exact ⟨‹_›, rfl⟩

theorem modexpResult_ok {rd : RegId} {chk : Bool} {b e m : Nat} {c : Commit} (h : modexpResult rd chk b e m = .ok c) :
    m ≠ 0 ∧ c = Commit.plain [(rd, modpow b e m)] := by
  unfold modexpResult at h
  split at h
  · cases h
  · split at h
    · cases h
    · cases h; exact ⟨‹_›, rfl⟩

theorem xgcdResult_ok {rd rx ry : RegId} {a b : Nat} {c : Commit} (h : xgcdResult rd rx ry a b = .ok c) :
    c = xgcdCommit rd rx ry (xgcd a b).1 (xgcd a b).2.1 (xgcd a b).2.2 := by
  unfold xgcdResult at h
  split at h
  · cases h; rfl
  · cases h

theorem modinvResult_ok {rd : RegId} {a m : Nat} {c : Commit} (h : modinvResult rd a m = .ok c) :
    m ≠ 0 ∧ ∃ v, modinv a m = some v ∧ c = Commit.plain [(rd, v)] := by
  unfold modinvResult at h
  split at h
  · cases h
  · split at h
    · cases h
    · cases h; exact ⟨‹_›, _, ‹_›, rfl⟩

theorem linconResult_ok {rd rx ry : RegId} {a b m : Nat} {c : Commit} (h : linconResult rd rx ry a b m = .ok c) :
    m ≠ 0 ∧ ((lincon a b m = none ∧ c = emptyCommit rd rx ry)
      ∨ ∃ z n p, lincon a b m = some (z, n, p) ∧ c = Commit.plain [(rd, z), (rx, n), (ry, p)]) := by
  unfold linconResult at h
  split at h
  · split at h
    · cases h
    · refine ⟨‹_›, ?_⟩
      split at h
      · cases h; exact .inl ⟨‹_›, rfl⟩
      · cases h; exact .inr ⟨_, _, _, ‹_›, rfl⟩
  · cases h

/-! ### Size and flags of a command's results -/

/-- No command truncates (00_scope R5): on operands below a bound above 1, every value written is below it. -/
theorem resultOf_writes_lt {i : Instr} {x : RegId → Nat} {c : Commit} {B : Nat} (h : resultOf i x = .ok c) (hB : 1 < B)
    (hx : ∀ r, x r < B) : ∀ p ∈ c.writes, p.2 < B := by
  cases i with
  | modred rd ra rm =>
    obtain ⟨hm, rfl⟩ := modredResult_ok h
    simpa [Commit.plain] using (red_lt (x ra) (Nat.pos_of_ne_zero hm)).trans (hx rm)
  | modmul rd ra rb rm =>
    obtain ⟨hm, rfl⟩ := modmulResult_ok h
    have hlt : mulmod (x ra) (x rb) (x rm) < x rm := red_lt (x ra * x rb) (Nat.pos_of_ne_zero hm)
    simpa [Commit.plain] using hlt.trans (hx rm)
  | modexp rd ra rb rm chk =>
    obtain ⟨hm, rfl⟩ := modexpResult_ok h
    simpa [Commit.plain] using (modpow_lt (x ra) (x rb) hm).trans (hx rm)
  | xgcd rd rx ry ra rb =>
    obtain rfl := xgcdResult_ok h
    have hg : (xgcd (x ra) (x rb)).1 < B := by
      rw [xgcd_fst]
      exact gcd_lt_of_lt (hx ra) (hx rb)
    obtain ⟨hs, ht⟩ := xgcd_coefficients_le (x ra) (x rb)
    have hs' := hs.trans_lt (max_lt (hx rb) hB)
    have ht' := ht.trans_lt (max_lt (hx ra) hB)
    simpa [xgcdCommit] using ⟨hg, hs', ht'⟩
  | modinv rd ra rm =>
    obtain ⟨hm, v, hv, rfl⟩ := modinvResult_ok h
    simpa [Commit.plain] using (modinv_lt hm hv).trans (hx rm)
  | lincon rd rx ry ra rb rm =>
    obtain ⟨hm, ⟨_, rfl⟩ | ⟨z, n, p, hl, rfl⟩⟩ := linconResult_ok h
    · simpa [emptyCommit] using hB.trans_le' (Nat.zero_le 1)
    · obtain ⟨hz, hn, hp⟩ := lincon_le hm hl
      simpa [Commit.plain] using ⟨hz.trans_lt (hx rm), hn.trans_lt (hx rm), hp.trans_lt (hx rm)⟩

/-- SX and SY are set only by `xgcd`, for a negative coefficient (10_state R34). -/
theorem resultOf_signs {i : Instr} {x : RegId → Nat} {c : Commit} (h : resultOf i x = .ok c)
    (hf : c.sx = true ∨ c.sy = true) :
    ∃ rd rx ry ra rb, i = .xgcd rd rx ry ra rb
      ∧ c = xgcdCommit rd rx ry (xgcd (x ra) (x rb)).1 (xgcd (x ra) (x rb)).2.1 (xgcd (x ra) (x rb)).2.2 := by
  have plain : ∀ l, c ≠ Commit.plain l := by
    rintro l rfl
    rcases hf with hf | hf <;> cases hf
  cases i with
  | modred rd ra rm => exact absurd (modredResult_ok h).2 (plain _)
  | modmul rd ra rb rm => exact absurd (modmulResult_ok h).2 (plain _)
  | modexp rd ra rb rm chk => exact absurd (modexpResult_ok h).2 (plain _)
  | xgcd rd rx ry ra rb => exact ⟨rd, rx, ry, ra, rb, rfl, xgcdResult_ok h⟩
  | modinv rd ra rm =>
    obtain ⟨_, v, _, hc⟩ := modinvResult_ok h
    exact absurd hc (plain _)
  | lincon rd rx ry ra rb rm =>
    obtain ⟨_, ⟨_, rfl⟩ | ⟨z, n, p, _, hc⟩⟩ := linconResult_ok h
    · rcases hf with hf | hf <;> cases hf
    · exact absurd hc (plain _)

/-- EMPTY is set only by `lincon` without a solution (10_state R34). -/
theorem resultOf_empty {i : Instr} {x : RegId → Nat} {c : Commit} (h : resultOf i x = .ok c) (hf : c.empty = true) :
    ∃ rd rx ry ra rb rm, i = .lincon rd rx ry ra rb rm ∧ lincon (x ra) (x rb) (x rm) = none
      ∧ c = emptyCommit rd rx ry := by
  have plain : ∀ l, c ≠ Commit.plain l := by
    rintro l rfl
    cases hf
  cases i with
  | modred rd ra rm => exact absurd (modredResult_ok h).2 (plain _)
  | modmul rd ra rb rm => exact absurd (modmulResult_ok h).2 (plain _)
  | modexp rd ra rb rm chk => exact absurd (modexpResult_ok h).2 (plain _)
  | xgcd rd rx ry ra rb =>
    obtain rfl := xgcdResult_ok h
    cases hf
  | modinv rd ra rm =>
    obtain ⟨_, v, _, hc⟩ := modinvResult_ok h
    exact absurd hc (plain _)
  | lincon rd rx ry ra rb rm =>
    obtain ⟨_, ⟨hl, hc⟩ | ⟨z, n, p, _, hc⟩⟩ := linconResult_ok h
    · exact ⟨rd, rx, ry, ra, rb, rm, rfl, hl, hc⟩
    · exact absurd hc (plain _)

/-- The operation field of a word the decoder accepts is its command's (30_encoding R73). -/
theorem fieldOP_of_decode {c : Word} {i : Instr} (h : decode c = .ok i) : fieldOP c = Laws.OpField.opcode i := by
  obtain ⟨_, ⟨ho, h⟩ | ⟨ho, h⟩ | ⟨ho, h⟩ | ⟨ho, h⟩ | ⟨ho, h⟩ | ⟨ho, h⟩⟩ := decode_ok_cases h
  · obtain ⟨_, _, _, _, _, _, _, _, _, _, rfl⟩ := decodeModred_ok h
    exact ho
  · obtain ⟨_, _, _, _, _, _, _, _, _, _, _, rfl⟩ := decodeModmul_ok h
    exact ho
  · obtain ⟨_, _, _, _, _, _, _, _, _, _, rfl⟩ := decodeModexp_ok h
    exact ho
  · obtain ⟨_, _, _, _, _, _, _, _, _, _, _, _, _, rfl⟩ := decodeXgcd_ok h
    exact ho
  · obtain ⟨_, _, _, _, _, _, _, _, _, _, rfl⟩ := decodeModinv_ok h
    exact ho
  · obtain ⟨_, _, _, _, _, _, _, _, _, _, _, _, _, _, rfl⟩ := decodeLincon_ok h
    exact ho

/-- A word that completes without error is a command's, with the command's result. -/
theorem outcomeOf_ok_inv {w : Word} {x : RegId → Nat} {c : Commit} (h : outcomeOf w x = .ok c) :
    ∃ i, decode w = .ok i ∧ resultOf i x = .ok c := by
  unfold outcomeOf at h
  split at h
  · cases h
  · exact ⟨_, ‹_›, h⟩

end Sys2Proof.Machine
end

section
/-! The invariant of 10_state R43 is kept by every step: one lemma per event of a step. -/

namespace Sys2Proof.Machine

/-- With the reset input released the invariant is its three parts of 10_state R43. -/
theorem inv_of_released {s : State} (hr : s.rst = false) (hw : s.WidthInv) (he : s.ErrInv) (hf : s.FlagInv) : s.Inv :=
  ⟨hw, he, hf, fun h => absurd h (by simp [hr])⟩

/-- The reset values meet the invariant at every `L` of the parameter's range. -/
theorem inv_of_atReset {s : State} (h1 : 1 ≤ s.limbs) (h2 : s.limbs < 2 ^ 16) (h : s.AtReset) : s.Inv := by
  obtain ⟨hx, hp, hc, he, hsx, hsy, hem, hwd, hie⟩ := id h
  refine ⟨⟨h1, h2, fun r => by rw [hx]; exact Nat.two_pow_pos _⟩, ?_, ?_, fun _ => h⟩
  · simp [State.ErrInv, he, hp]
  · simp [State.FlagInv, hsx, hsy, hem]

theorem resetAction_atReset (s : State) (level : Bool) : { s.resetAction with rst := level }.AtReset :=
  ⟨s.resetAction_readReg, rfl, rfl, rfl, rfl, rfl, rfl, rfl, rfl⟩

/-- Outside ERROR the code is 0 (10_state R43 item 1). -/
theorem State.ErrInv.errcode_eq_zero {s : State} (h : s.ErrInv) (hp : s.phase ≠ .error) : s.errcode = 0 := by
  by_contra hne
  exact hp (h.1.1 hne)

/-- An error's code is one of 1 to 4 (60_exceptions R130). -/
theorem MauError.code_range (e : MauError) : e.code ≠ 0 ∧ e.code.toNat ≤ 4 := by
  cases e <;> decide

/-- A phase with no flag set meets 10_state R43 item 2. -/
theorem flagInv_of_clear {s : State} (hsx : s.sx = false) (hsy : s.sy = false) (hem : s.empty = false) : s.FlagInv := by
  simp [State.FlagInv, hsx, hsy, hem]

/-- A completion without error keeps every register below `2^W`: no command truncates (00_scope R5, 42 R113). -/
theorem retire_keeps_widthInv {s : State} {c : Commit} (h : s.WidthInv) (hc : outcomeOf s.cmd s.readReg = .ok c) :
    (s.retire c).WidthInv := by
  obtain ⟨h1, h2, hx⟩ := h
  obtain ⟨i, _, hi⟩ := outcomeOf_ok_inv hc
  have hB : 1 < 2 ^ (32 * s.limbs) := Nat.one_lt_two_pow (by omega)
  refine ⟨by simpa using h1, by simpa using h2, fun r => ?_⟩
  simpa using State.writeRegs_readReg_lt s c.writes hx (resultOf_writes_lt hi hB hx) r

/-- The flags a completion sets are those of the command in CMD, and SX and SY are never both set (42 R113). -/
theorem retire_flagInv {s : State} {c : Commit} (hc : outcomeOf s.cmd s.readReg = .ok c) : (s.retire c).FlagInv := by
  obtain ⟨i, hd, hi⟩ := outcomeOf_ok_inv hc
  have hop := fieldOP_of_decode hd
  refine ⟨fun hf => ⟨rfl, ?_⟩, fun hf => ⟨rfl, ?_⟩, fun ⟨hsx, hsy⟩ => ?_⟩
  · obtain ⟨rd, rx, ry, ra, rb, rfl, _⟩ := resultOf_signs hi hf
    exact (congrArg fieldOP (s.retire_cmd c)).trans hop
  · obtain ⟨rd, rx, ry, ra, rb, rm, rfl, _⟩ := resultOf_empty hi hf
    exact (congrArg fieldOP (s.retire_cmd c)).trans hop
  · obtain ⟨rd, rx, ry, ra, rb, rfl, rfl⟩ := resultOf_signs hi (.inl hsx)
    have hs : (xgcd (s.readReg ra) (s.readReg rb)).2.1 < 0 := of_decide_eq_true hsx
    have ht : (xgcd (s.readReg ra) (s.readReg rb)).2.2 < 0 := of_decide_eq_true hsy
    exact absurd (mul_pos_of_neg_of_neg hs ht) (not_lt.2 (xgcd_signs _ _))

/-- A completion keeps the invariant (60_exceptions R131). -/
theorem commit_keeps_inv {s : State} (h : s.Inv) (hp : s.phase = .busy) (hr : s.rst = false) :
    (s.commit (outcomeOf s.cmd s.readReg)).Inv := by
  obtain ⟨hw, he, _, _⟩ := h
  cases ho : outcomeOf s.cmd s.readReg with
  | error e => exact inv_of_released hr hw ⟨iff_of_true e.code_range.1 rfl, e.code_range.2⟩ (flagInv_of_clear rfl rfl rfl)
  | ok c =>
    have h0 : s.errcode = 0 := he.errcode_eq_zero (by simp [hp])
    refine inv_of_released ((s.commit_rst (.ok c)).trans hr) (retire_keeps_widthInv hw ho) ?_ (retire_flagInv ho)
    simp [State.ErrInv, commit_ok, h0]

/-- A limb write keeps the invariant: it keeps the register below `2^W` (20_memory R58). -/
theorem writeLimb_keeps_inv {s : State} (h : s.Inv) (hr : s.rst = false) (i : RegId) {j : Nat} (hj : j < s.limbs)
    (v : Word) : (s.writeReg i (setLimb (s.readReg i) j v)).Inv := by
  obtain ⟨⟨h1, h2, hx⟩, he, hf, _⟩ := h
  refine inv_of_released hr ⟨h1, h2, fun r => ?_⟩ he hf
  rw [State.writeReg_readReg]
  split
  · exact setLimb_lt _ _ _ v hj (hx i)
  · exact hx r

/-- Acknowledge keeps the invariant (60_exceptions R141). -/
theorem acknowledge_keeps_inv {s : State} (h : s.Inv) (hr : s.rst = false) : s.acknowledge.Inv := by
  obtain ⟨hw, he, hf, _⟩ := h
  rcases s.acknowledge_cases with ⟨_, ha⟩ | ⟨_, ha⟩
  · rw [ha]
    exact inv_of_released hr hw (by simp [State.ErrInv]) (flagInv_of_clear rfl rfl rfl)
  · rw [ha]
    exact inv_of_released hr hw he hf

/-- Every event of a step keeps the invariant. -/
theorem UnitStep.keeps_inv {s u : State} (hu : UnitStep s u) (h : s.Inv) : u.Inv := by
  obtain ⟨hw, he, hf, _⟩ := id h
  cases hu with
  | complete hm => exact commit_keeps_inv h (engineMoves_busy s hm).1 (engineMoves_busy s hm).2
  | quiet => exact h
  | drop hhw => exact inv_of_released hhw.released hw he hf
  | limb _ hj hhw => exact writeLimb_keeps_inv h hhw.released _ hj _
  | accept _ hhw => exact inv_of_released hhw.released hw (by simp [State.ErrInv]) (flagInv_of_clear rfl rfl rfl)
  | acknowledge hhw _ _ =>
    exact acknowledge_keeps_inv (inv_of_released hhw.released hw he hf) hhw.released
  | enable hhw => exact inv_of_released hhw.released hw he hf
  | reset level _ => exact inv_of_atReset hw.1 hw.2.1 (resetAction_atReset s level)

/-- Settles O55: what a step does to the unit is one of the events, and each keeps the invariant, which does not speak of the
agents. -/
theorem stepKeepsInvariant : Obligations.StepKeepsInvariant := by
  intro s t h ht
  obtain ⟨u, host, turns, returned, hu, rfl⟩ := unitStep_of_step ht
  exact hu.keeps_inv h

end Sys2Proof.Machine
end

section
/-! Proofs of the statements on the registers of 10_state: each from what a step does to the unit, or from the operation of the word index. -/

namespace Sys2Proof.Machine

/-! ### STATUS and CAP as read -/

/-- A bit of a word, from its place in the word's value. -/
theorem getLsbD_of_digit {w : Word} {n : Nat} {b : Bool} (h : w.toNat / 2 ^ n % 2 = b.toNat) : w.getLsbD n = b := by
  rw [BitVec.getLsbD, Nat.testBit_eq_decide_div_mod_eq, h]
  cases b <;> rfl

/-- The value of CAP (10_state R37). -/
theorem capWord_toNat (L : Nat) : (capWord L).toNat = L % 2 ^ 16 + 8 * 2 ^ 16 := by
  simp only [capWord, Config.nreg, BitVec.toNat_ofNat]
  omega

/-- Every field of STATUS at its place (10_state R39). -/
theorem State.statusWord_fields (s : State) :
    s.statusWord.getLsbD 0 = decide (s.phase = .busy) ∧ s.statusWord.getLsbD 1 = decide (s.phase = .done)
      ∧ s.statusWord.getLsbD 2 = decide (s.phase = .error) ∧ s.statusWord.getLsbD 3 = s.wrdrop
      ∧ slice s.statusWord.toNat 7 4 = s.errcode.toNat ∧ s.statusWord.getLsbD 8 = s.sx
      ∧ s.statusWord.getLsbD 9 = s.sy ∧ s.statusWord.getLsbD 10 = s.empty ∧ slice s.statusWord.toNat 31 11 = 0
      ∧ slice s.statusWord.toNat 2 0 = (decide (s.phase = .busy)).toNat + (decide (s.phase = .done)).toNat * 2
          + (decide (s.phase = .error)).toNat * 4 := by
  have hv := s.statusWord_toNat
  have hb := (decide (s.phase = .busy)).toNat_lt
  have hd := (decide (s.phase = .done)).toNat_lt
  have he := (decide (s.phase = .error)).toNat_lt
  have hw := s.wrdrop.toNat_lt
  have hc := s.errcode.isLt
  have hx := s.sx.toNat_lt
  have hy := s.sy.toNat_lt
  have hm := s.empty.toNat_lt
  simp only [slice]
  refine ⟨getLsbD_of_digit ?_, getLsbD_of_digit ?_, getLsbD_of_digit ?_, getLsbD_of_digit ?_, ?_, getLsbD_of_digit ?_,
    getLsbD_of_digit ?_, getLsbD_of_digit ?_, ?_, ?_⟩
  all_goals omega

/-- Settles O33: STATUS is the sum of its fields at their places, and exactly one phase makes the three phase bits 0. -/
theorem statusWordFields : Obligations.StatusWordFields := by
  intro s
  obtain ⟨hbusy, hdone, herr, hwrdrop, hcode, hsx, hsy, hempty, hhigh, hphase⟩ := s.statusWord_fields
  refine ⟨rfl, by rw [hbusy, decide_eq_true_iff], by rw [hdone, decide_eq_true_iff],
    by rw [herr, decide_eq_true_iff], hwrdrop, hcode, hsx, hsy, hempty, hhigh, ?_, fun _ => rfl⟩
  rw [hphase]
  cases s.phase <;> decide

/-- No event of a step changes the parameter (00_scope R5). -/
theorem UnitStep.limbs_eq {s u : State} (hu : UnitStep s u) : u.limbs = s.limbs := by
  cases hu with
  | complete _ => exact s.commit_limbs _
  | acknowledge _ _ _ => exact State.acknowledge_limbs _
  | quiet | drop _ | limb _ _ _ | accept _ _ | enable _ | reset _ _ => rfl

/-- Settles O31: CAP depends on the parameter alone, which no event of a step changes. -/
theorem capWordFields : Obligations.CapWordFields := by
  refine ⟨fun s hL => ?_, fun _ _ => rfl, fun s t ht => ?_, rfl⟩
  · have hv : (s.hostRead 0).toNat = s.limbs % 2 ^ 16 + 8 * 2 ^ 16 := capWord_toNat s.limbs
    simp only [slice, hv]
    omega
  · obtain ⟨u, host, turns, returned, hu, rfl⟩ := unitStep_of_step ht
    exact ⟨hu.limbs_eq, congrArg capWord hu.limbs_eq⟩

/-! ### CMD, WRDROP and PHASE: the events that change them -/

/-- Settles O34: of the events of a step only an accepted CMD write and a reset change CMD. -/
theorem cmdHoldsLastAccepted : Obligations.CmdHoldsLastAccepted := by
  refine ⟨fun _ => rfl, rfl, fun s v => ?_, fun s t ht hne => ?_⟩
  · change (s.writeCmd v).cmd = _
    split
    · next hp => rw [s.writeCmd_accepts v hp, State.accept_cmd]
    · next hp => rw [s.writeCmd_drops v (by revert hp; cases s.phase <;> simp), State.drop_cmd]
  · obtain ⟨u, host, turns, returned, hu, rfl⟩ := unitStep_of_step ht
    cases hu with
    | complete _ => exact absurd (s.commit_cmd _) hne
    | accept hp hw => exact .inl ⟨hw, hp⟩
    | acknowledge _ _ _ => exact absurd (State.acknowledge_cmd _) hne
    | reset _ hr => exact .inr ⟨hr, rfl⟩
    | quiet | drop _ | limb _ _ _ | enable _ => exact absurd rfl hne

/-- Only acknowledge and reset clear WRDROP (10_state R35). -/
theorem UnitStep.wrdrop_cleared {s u : State} (hu : UnitStep s u) (hs : s.wrdrop = true) (hc : u.wrdrop = false) :
    StepAcknowledges s ∨ StepResets s := by
  cases hu with
  | complete _ => exact absurd hc (by simp [hs])
  | acknowledge hw h2 h1 => exact .inl ⟨_, hw, h2, h1⟩
  | reset _ hr => exact .inr hr
  | drop _ => cases hc
  | quiet | limb _ _ _ | accept _ _ | enable _ => exact absurd (hs.symm.trans hc) nofun

/-- A commit neither reads nor writes WRDROP. -/
theorem State.commit_wrdrop_update (s : State) (d : Bool) (o : Except MauError Commit) :
    { s with wrdrop := d }.commit o = { s.commit o with wrdrop := d } := by
  cases o with
  | error e => rfl
  | ok c => simp only [State.commit, State.retire, State.writeRegs_eq]

/-- Settles O42: by the events of a step, and because a command is a commit, which leaves WRDROP alone. -/
theorem wrdropIsSticky : Obligations.WrdropIsSticky := by
  refine ⟨fun s t ht hs hc => ?_, fun i s t ht => ?_, fun _ _ => rfl, fun _ => rfl⟩
  · obtain ⟨u, host, turns, returned, hu, rfl⟩ := unitStep_of_step ht
    exact hu.wrdrop_cleared hs hc
  · obtain rfl := exec_next_iff.1 ht
    exact ⟨s.commit_wrdrop _, fun d => exec_next_iff.2 (s.commit_wrdrop_update d _).symm⟩

/-- A completion ends in DONE or in ERROR (60_exceptions R131). -/
theorem commit_phase (s : State) (o : Except MauError Commit) : (s.commit o).phase = .done ∨ (s.commit o).phase = .error := by
  cases o with
  | error e => exact .inr rfl
  | ok c => exact .inl rfl

/-- Settles O50: each event of a step that changes PHASE is a row of the table of 10_state R31. -/
theorem phaseTransitions : Obligations.PhaseTransitions := by
  intro s t ht hne
  obtain ⟨u, host, turns, returned, hu, rfl⟩ := unitStep_of_step ht
  cases hu with
  | complete hm => exact .inr (.inl ⟨(engineMoves_busy s hm).1, commit_phase s _, hm⟩)
  | accept hp hw => exact .inl ⟨hp, rfl, _, hw⟩
  | @acknowledge v hw h2 h1 =>
    rcases State.acknowledge_cases { s with ie := v.getLsbD 0 } with ⟨hp, ha⟩ | ⟨_, ha⟩
    · exact .inr (.inr (.inl ⟨hp, congrArg State.phase ha, v, hw, h2, h1⟩))
    · exact absurd (congrArg State.phase ha) hne
  | reset _ hr => exact .inr (.inr (.inr ⟨rfl, hr⟩))
  | quiet | drop _ | limb _ _ _ | enable _ => exact absurd rfl hne

/-! ### Operand registers and flags: who writes them -/

/-- A completion that changes a register ends without error, and the register is a destination of the command (10_state R22). -/
theorem commit_changes_register {s : State} {r : RegId}
    (hne : (s.commit (outcomeOf s.cmd s.readReg)).readReg r ≠ s.readReg r) :
    (s.commit (outcomeOf s.cmd s.readReg)).phase = .done ∧ ∃ i, decode s.cmd = .ok i ∧ r ∈ destsOf i := by
  cases ho : outcomeOf s.cmd s.readReg with
  | error e =>
    rw [ho] at hne
    exact absurd rfl hne
  | ok c =>
    obtain ⟨i, hd, hi⟩ := outcomeOf_ok_inv ho
    refine ⟨rfl, i, hd, ?_⟩
    by_contra hr
    rw [outcomeOf_ok hd] at hne
    exact hne (commit_resultOf_readReg_notMem s i s.readReg hr)

/-- Settles O52: by the events of a step, those that leave the register file alone contradicting the change. -/
theorem registerWriters : Obligations.RegisterWriters := by
  intro s t r ht hne
  obtain ⟨u, host, turns, returned, hu, rfl⟩ := unitStep_of_step ht
  cases hu with
  | complete hm =>
    obtain ⟨hp, hi⟩ := commit_changes_register hne
    exact .inr (.inl ⟨hm, hp, hi⟩)
  | @limb i j v hp hj hw =>
    have hri : r = i := by
      by_contra h
      exact hne (State.writeReg_readReg_ne s i _ r h)
    exact .inl ⟨hp, j, v, hj, hri ▸ hw⟩
  | acknowledge _ _ _ => exact absurd (State.acknowledge_readReg _ r) hne
  | reset _ hr => exact .inr (.inr ⟨hr, s.resetAction_readReg r⟩)
  | quiet | drop _ | accept _ _ | enable _ => exact absurd rfl hne

/-- Acknowledge sets no flag. -/
theorem State.acknowledge_flags (s : State) :
    (s.acknowledge.sx = true → s.sx = true) ∧ (s.acknowledge.sy = true → s.sy = true)
      ∧ (s.acknowledge.empty = true → s.empty = true) := by
  rcases s.acknowledge_cases with ⟨_, ha⟩ | ⟨_, ha⟩
  · rw [ha]
    exact ⟨nofun, nofun, nofun⟩
  · rw [ha]
    exact ⟨id, id, id⟩

/-- An event that is no completion sets no flag (10_state R34). -/
theorem UnitStep.flags {s u : State} (hu : UnitStep s u) :
    (s.engineMoves = true ∧ u = s.commit (outcomeOf s.cmd s.readReg))
      ∨ ((u.sx = true → s.sx = true) ∧ (u.sy = true → s.sy = true) ∧ (u.empty = true → s.empty = true)) := by
  cases hu with
  | complete hm => exact .inl ⟨hm, rfl⟩
  | acknowledge _ _ _ => exact .inr (State.acknowledge_flags _)
  | quiet | drop _ | limb _ _ _ | enable _ => exact .inr ⟨id, id, id⟩
  | accept _ _ | reset _ _ => exact .inr ⟨nofun, nofun, nofun⟩

/-- The completion that leaves SX is of an `xgcd` whose first coefficient is negative; the same for SY and the second. -/
theorem commit_signs {s : State} :
    ((s.commit (outcomeOf s.cmd s.readReg)).sx = true → ∃ rd rx ry ra rb, decode s.cmd = .ok (.xgcd rd rx ry ra rb)
        ∧ (xgcd (s.readReg ra) (s.readReg rb)).2.1 < 0)
      ∧ ((s.commit (outcomeOf s.cmd s.readReg)).sy = true → ∃ rd rx ry ra rb, decode s.cmd = .ok (.xgcd rd rx ry ra rb)
        ∧ (xgcd (s.readReg ra) (s.readReg rb)).2.2 < 0) := by
  cases ho : outcomeOf s.cmd s.readReg with
  | error e => exact ⟨nofun, nofun⟩
  | ok c =>
    obtain ⟨i, hd, hi⟩ := outcomeOf_ok_inv ho
    constructor
    · intro hf
      obtain ⟨rd, rx, ry, ra, rb, rfl, rfl⟩ := resultOf_signs hi (.inl hf)
      exact ⟨rd, rx, ry, ra, rb, hd, of_decide_eq_true hf⟩
    · intro hf
      obtain ⟨rd, rx, ry, ra, rb, rfl, rfl⟩ := resultOf_signs hi (.inr hf)
      exact ⟨rd, rx, ry, ra, rb, hd, of_decide_eq_true hf⟩

/-- The completion that leaves EMPTY is of a `lincon` without a solution, and its three destinations are then 0 (43 R125). -/
theorem commit_empty {s : State} (hf : (s.commit (outcomeOf s.cmd s.readReg)).empty = true) :
    ∃ rd rx ry ra rb rm, decode s.cmd = .ok (.lincon rd rx ry ra rb rm)
      ∧ ¬ Nat.gcd (s.readReg ra) (s.readReg rm) ∣ s.readReg rb
      ∧ ∀ r ∈ [rd, rx, ry], (s.commit (outcomeOf s.cmd s.readReg)).readReg r = 0 := by
  cases ho : outcomeOf s.cmd s.readReg with
  | error e =>
    rw [ho] at hf
    cases hf
  | ok c =>
    rw [ho] at hf
    obtain ⟨i, hd, hi⟩ := outcomeOf_ok_inv ho
    obtain ⟨rd, rx, ry, ra, rb, rm, rfl, hl, rfl⟩ := resultOf_empty hi hf
    refine ⟨rd, rx, ry, ra, rb, rm, hd, (lincon_eq_none_iff _ _ _).1 hl, fun r hr => ?_⟩
    exact retire_readReg_mem s hi (by simpa [emptyCommit] using hr)

/-- Settles O53: only a completion sets a flag, by the result of its command; an error completion is `raise`, which clears all three. -/
theorem flagSetters : Obligations.FlagSetters := by
  intro s t ht
  have herror : s.engineMoves = true → ∀ e, outcomeOf s.cmd s.readReg = .error e →
      t.sx = false ∧ t.sy = false ∧ t.empty = false := by
    intro hm e he
    rw [step_engine s hm, he] at ht
    cases ht
    exact ⟨rfl, rfl, rfl⟩
  obtain ⟨u, host, turns, returned, hu, rfl⟩ := unitStep_of_step ht
  rcases hu.flags with ⟨hm, rfl⟩ | ⟨hsx, hsy, hem⟩
  · refine ⟨fun hf => .inr ⟨hm, commit_signs.1 hf⟩, fun hf => .inr ⟨hm, commit_signs.2 hf⟩, fun hf => .inr ⟨hm, ?_⟩, herror⟩
    obtain ⟨rd, rx, ry, ra, rb, rm, hd, hg, hz⟩ := commit_empty hf
    exact ⟨rd, rx, ry, ra, rb, rm, hd, hg, hz rd (by simp), hz rx (by simp), hz ry (by simp)⟩
  · exact ⟨fun hf => .inl (hsx hf), fun hf => .inl (hsy hf), fun hf => .inl (hem hf), herror⟩

end Sys2Proof.Machine
end

section
/-! Proofs of the statements on 10_state that read one operation of the interface: CMD and CTRL writes, `irq`, and the reset values. -/

namespace Sys2Proof.Machine

/-- Settles O30: index 3 selects CMD, whose write is accepted or dropped by the phase; an illegal word's outcome is E_ILLCMD. -/
theorem cmdWriteAcceptance : Obligations.CmdWriteAcceptance := by
  intro s v
  refine ⟨fun hp => s.writeCmd_accepts v hp, fun hp => s.writeCmd_drops v hp, fun hp e he => ?_⟩
  have haccept : s.hostWrite 3 v = s.accept v := s.writeCmd_accepts v hp
  refine ⟨(s.accept v).raise .illcmd, ?_, rfl, rfl⟩
  rw [haccept, complete_eq_commit, State.accept_cmd, outcomeOf_illegal he, commit_error]

/-! ### CTRL writes (10_state R38): one lemma per case -/

section
variable {s : State} {v : Word}

theorem writeCtrl_reset (h2 : v.getLsbD 2 = true) : s.writeCtrl v = s.resetAction :=
  if_pos h2

theorem writeCtrl_acknowledge (h2 : v.getLsbD 2 = false) (h1 : v.getLsbD 1 = true) :
    s.writeCtrl v = { s with ie := v.getLsbD 0 }.acknowledge := by
  rw [State.writeCtrl, h2, if_neg nofun, if_pos h1]

theorem writeCtrl_enable (h2 : v.getLsbD 2 = false) (h1 : v.getLsbD 1 = false) :
    s.writeCtrl v = { s with ie := v.getLsbD 0 } := by
  rw [State.writeCtrl, h2, if_neg nofun, h1, if_neg nofun]

/-- A CTRL write is a soft reset, an acknowledge with the new IE, or the new IE alone. -/
theorem writeCtrl_cases (s : State) (v : Word) :
    s.writeCtrl v = s.resetAction ∨ s.writeCtrl v = { s with ie := v.getLsbD 0 }.acknowledge
      ∨ s.writeCtrl v = { s with ie := v.getLsbD 0 } := by
  cases h2 : v.getLsbD 2 with
  | true => exact .inl (writeCtrl_reset h2)
  | false =>
    cases h1 : v.getLsbD 1 with
    | true => exact .inr (.inl (writeCtrl_acknowledge h2 h1))
    | false => exact .inr (.inr (writeCtrl_enable h2 h1))

end

/-- Settles O32: index 1 selects CTRL, whose write is one of three cases, none of which sets WRDROP. -/
theorem ctrlReadWrite : Obligations.CtrlReadWrite := by
  intro s v
  refine ⟨rfl, writeCtrl_reset, writeCtrl_acknowledge, writeCtrl_enable, fun hd => ?_⟩
  change (s.writeCtrl v).wrdrop = true at hd
  rcases writeCtrl_cases s v with h | h | h
  · rw [h] at hd
    cases hd
  · rw [h, State.acknowledge_wrdrop] at hd
    cases hd
  · rw [h] at hd
    exact hd

/-! ### The interrupt line (10_state R41) -/

theorem State.irq_iff (s : State) : s.irq = true ↔ s.ie = true ∧ (s.phase = .done ∨ s.phase = .error) := by
  simp [State.irq]

theorem State.irq_of_disabled {s : State} (h : s.ie = false) : s.irq = false := by
  simp [State.irq, h]

theorem State.irq_of_running {s : State} (h : s.phase = .idle ∨ s.phase = .busy) : s.irq = false := by
  rcases h with h | h <;> simp [State.irq, h]

theorem State.irq_of_completed {s : State} (h : s.phase = .done ∨ s.phase = .error) : s.irq = s.ie := by
  simp [State.irq, h]

/-- Acknowledge lowers `irq`, since it ends in IDLE or BUSY. -/
theorem State.acknowledge_irq (s : State) : s.acknowledge.irq = false := by
  rcases s.acknowledge_cases with ⟨_, h⟩ | ⟨hp, h⟩
  · rw [h]
    exact State.irq_of_running (.inl rfl)
  · rw [h]
    exact State.irq_of_running hp

/-- Settles O35: the level by its definition, and each event by the phase and IE it leaves. -/
theorem irqRisesAndFalls : Obligations.IrqRisesAndFalls := by
  refine ⟨State.irq_iff, rfl, State.acknowledge_irq, fun _ => rfl, fun s v hp => ?_, fun s v h0 => ?_, fun s hp => ?_,
    fun i s t ht => ?_⟩
  · have haccept : s.hostWrite 3 v = s.accept v := s.writeCmd_accepts v (.inr hp)
    rw [haccept]
    exact State.irq_of_running (.inr rfl)
  · change (s.writeCtrl v).irq = false
    rcases writeCtrl_cases s v with h | h | h
    · rw [h]
      exact State.irq_of_disabled rfl
    · rw [h]
      exact State.acknowledge_irq _
    · rw [h]
      exact State.irq_of_disabled h0
  · have henable : s.hostWrite 1 1 = { s with ie := true } := writeCtrl_enable (v := 1) rfl rfl
    rw [henable]
    exact (State.irq_iff _).2 ⟨rfl, hp⟩
  · obtain rfl := exec_next_iff.1 ht
    rw [State.irq_of_completed (commit_phase s _)]
    exact s.commit_ie _

/-! ### Reset (10_state R45) -/

theorem resetAt_atReset (L : Nat) : (State.resetAt L).AtReset :=
  ⟨State.resetAt_readReg L, rfl, rfl, rfl, rfl, rfl, rfl, rfl, rfl⟩

/-- Settles O54: the reset values meet the invariant. -/
theorem resetMeetsInvariant : Obligations.ResetMeetsInvariant := by
  have hinv : ∀ L, 1 ≤ L → L < 2 ^ 16 → (State.resetAt L).Inv := fun L h1 h2 => inv_of_atReset h1 h2 (resetAt_atReset L)
  have hreset : State.reset = State.resetAt 16 := rfl
  exact ⟨hreset, hreset ▸ hinv 16 (by decide) (by decide), hinv⟩

/-- With all operand registers 0 every index from 4 up reads 0: it is reserved or a limb. -/
theorem hostRead_eq_zero_of_clear {s : State} (hx : ∀ r, s.readReg r = 0) {k : Nat} (hk : 4 ≤ k) : s.hostRead k = 0 := by
  unfold State.hostRead
  by_cases hw : 64 ≤ k ∧ k < 64 + 8 * s.limbs
  · rw [selectWord_window hw.1 hw.2]
    simp [limbOf, hx]
  · rw [selectWord_reserved (by omega)]

/-- Settles O44: the reset action writes the value of every register, and every word read is computed from these. -/
theorem resetValues : Obligations.ResetValues := by
  refine ⟨fun L => ⟨resetAt_atReset L, rfl⟩, fun s => ⟨resetAction_atReset s s.rst, ?_⟩, fun s h => ?_⟩
  · rw [State.driveRst_resets s (.inl rfl)]
    exact resetAction_atReset s true
  · obtain ⟨hx, hp, hc, he, hsx, hsy, hem, hwd, hie⟩ := h
    refine ⟨State.irq_of_disabled hie, ?_, ?_, hc, rfl, fun k hk => hostRead_eq_zero_of_clear hx hk⟩
    · change s.statusWord = 0
      simp [State.statusWord, hp, he, hsx, hsy, hem, hwd]
    · change s.ctrlWord = 0
      simp [State.ctrlWord, hie]

end Sys2Proof.Machine
end

section
/-! Proofs of the statements on 20_memory: what a word index selects, for reads and for writes, and limbs and bytes as digits. -/

namespace Sys2Proof.Machine

/-! ### Reads and writes by what the index selects (20_memory R56, R57) -/

section
variable {s : State} {k : Nat}

theorem hostRead_reserved (h : (4 ≤ k ∧ k ≤ 63) ∨ 64 + 8 * s.limbs ≤ k) : s.hostRead k = 0 := by
  rw [State.hostRead, selectWord_reserved h]

theorem hostRead_window (h1 : 64 ≤ k) (h2 : k < 64 + 8 * s.limbs) :
    s.hostRead k = limbOf (s.readReg ⟨(k - 64) / s.limbs, window_register h1 h2⟩) ((k - 64) % s.limbs) := by
  rw [State.hostRead, selectWord_window h1 h2]

theorem hostRead_limbIndex {j : Nat} (i : RegId) (hj : j < s.limbs) :
    s.hostRead (limbIndex s.limbs i j) = limbOf (s.readReg i) j := by
  rw [State.hostRead, selectWord_limbIndex i hj]

theorem hostWrite_reserved (v : Word) (h : (4 ≤ k ∧ k ≤ 63) ∨ 64 + 8 * s.limbs ≤ k) : s.hostWrite k v = s.drop := by
  rw [State.hostWrite, selectWord_reserved h]

theorem hostWrite_window (v : Word) (h1 : 64 ≤ k) (h2 : k < 64 + 8 * s.limbs) :
    s.hostWrite k v = s.writeLimb ⟨(k - 64) / s.limbs, window_register h1 h2⟩ ((k - 64) % s.limbs) v := by
  rw [State.hostWrite, selectWord_window h1 h2]

theorem hostWrite_limbIndex {j : Nat} (i : RegId) (v : Word) (hj : j < s.limbs) :
    s.hostWrite (limbIndex s.limbs i j) v = s.writeLimb i j v := by
  rw [State.hostWrite, selectWord_limbIndex i hj]

/-- Only writes to CTRL and CMD change PHASE (10_state R31). -/
theorem hostWrite_phase (v : Word) (h1 : k ≠ 1) (h3 : k ≠ 3) : (s.hostWrite k v).phase = s.phase := by
  rcases hostWrite_cases s k v with h | ⟨_, _, _, _, _, h⟩ | ⟨hk, _⟩ | ⟨hk, _⟩ | ⟨hk, _⟩ | ⟨hk, _⟩
  · rw [h, State.drop_phase]
  · rw [h, State.writeReg_phase]
  · exact absurd hk h3
  all_goals exact absurd hk h1

end

/-- Settles O36: each range of indices by what it selects, and the step of a read delivers that value. -/
theorem hostReadValues : Obligations.HostReadValues := by
  refine ⟨fun s k => ⟨(· ▸ rfl), (· ▸ rfl), (· ▸ rfl), (· ▸ rfl), ?_, ?_, ?_⟩, fun s k => window_register,
    fun s k rest hm hr hh => ?_⟩
  · exact fun h1 h2 => hostRead_reserved (.inl ⟨h1, h2⟩)
  · exact fun h1 _ h2 => hostRead_window h1 h2
  · exact fun h => hostRead_reserved (.inr h)
  · rw [step_read s hm hr hh, State.deliver, State.takeTurn_returned]

/-- Settles O37: each range of indices by what it selects, and the step of a write performs it. -/
theorem hostWriteDispatch : Obligations.HostWriteDispatch := by
  refine ⟨fun s k v => ⟨(· ▸ rfl), (· ▸ rfl), (· ▸ rfl), (· ▸ rfl), ?_, ?_, ?_, hostWrite_phase v⟩,
    fun s k => window_register, fun s k v rest hm hr hh => step_write s hm hr hh⟩
  · exact fun h1 h2 => hostWrite_reserved v (.inl ⟨h1, h2⟩)
  · exact fun h1 _ h2 => hostWrite_window v h1 h2
  · exact fun h => hostWrite_reserved v (.inr h)

/-- Settles O38: outside BUSY the register written is `setLimb` of its value, which replaces one digit in base `2^32`. -/
theorem operandWriteReplacesLimb : Obligations.OperandWriteReplacesLimb := by
  intro s i j v hj
  rw [hostWrite_limbIndex i v hj]
  refine ⟨s.writeLimb_busy i j v, fun hp => ⟨setLimb (s.readReg i) j v, s.writeLimb_notBusy i j v hp, ?_, ?_, ?_⟩⟩
  · exact limbOf_setLimb_same _ j v
  · exact fun n hn => limbOf_setLimb_ne _ j n v hn
  · exact setLimb_lt _ j s.limbs v hj

/-! ### Bytes (20_memory R54) -/

/-- A byte of a word is a digit in base `2^8`. -/
theorem byteOf_toNat (w : Word) (n : Nat) : (byteOf w n).toNat = w.toNat / 2 ^ (8 * n) % 2 ^ 8 := by
  rw [byteOf, BitVec.extractLsb'_toNat, Nat.shiftRight_eq_div_pow]

/-- Settles O40: limbs are the digits of a register in base `2^32`, bytes those of a word in base `2^8`. -/
theorem registerIsSumOfLimbs : Obligations.RegisterIsSumOfLimbs := by
  refine ⟨fun s i hx => ⟨?_, fun j hj => hostRead_limbIndex i hj⟩, fun w => ?_, fun base k n k' n' hn hn' he => ?_⟩
  · rw [sumLimbs_eq, Nat.mod_eq_of_lt hx]
  · have hw := w.isLt
    simp only [byteOf_toNat]
    omega
  · simp only [byteAddress] at he
    omega

/-- Settles O41: a write on the list is dropped by what its index selects; off the list it is a CTRL write, an accepted command or a
limb write outside BUSY, and none of these sets WRDROP. -/
theorem droppedWritesAreExactlyThese : Obligations.DroppedWritesAreExactlyThese := by
  intro s k v
  refine ⟨fun h => ?_, fun h hd => ?_⟩
  · rcases h with rfl | rfl | hlow | hhigh | ⟨rfl, hp⟩ | ⟨h1, h2, hp⟩
    · rfl
    · rfl
    · exact hostWrite_reserved v (.inl hlow)
    · exact hostWrite_reserved v (.inr hhigh)
    · exact s.writeCmd_drops v hp
    · rw [hostWrite_window v h1 h2]
      exact s.writeLimb_busy _ _ v hp
  · simp only [not_or] at h
    obtain ⟨h0, h2, hlow, hhigh, hcmd, hlimb⟩ := h
    have hk : k = 1 ∨ k = 3 ∨ (64 ≤ k ∧ k < 64 + 8 * s.limbs) := by omega
    rcases hk with rfl | rfl | ⟨hw1, hw2⟩
    · obtain ⟨_, _, _, _, hctrl⟩ := ctrlReadWrite s v
      exact hctrl hd
    · have hp : s.phase = .idle ∨ s.phase = .done := by
        cases hph : s.phase <;> simp [hph] at hcmd ⊢
      have haccept : s.hostWrite 3 v = s.accept v := s.writeCmd_accepts v hp
      rwa [haccept] at hd
    · have hp : s.phase ≠ .busy := fun hp => hlimb ⟨hw1, hw2, hp⟩
      rwa [hostWrite_window v hw1 hw2, s.writeLimb_notBusy _ _ v hp] at hd

/-- Settles O39: by what a reserved index selects. -/
theorem reservedIndices : Obligations.ReservedIndices :=
  fun _ _ v h => ⟨hostRead_reserved h, hostWrite_reserved v h⟩

end Sys2Proof.Machine
end

section
/-! Proofs of the statements on 30_encoding: encoder and decoder are inverse to each other (R70, R76), the mask table by fields (R74), the
number of legal words (R76), and what an illegal word does (R77). -/

namespace Sys2Proof

open Machine

/-! ### The round trip -/

/-- Settles O1: by the constructors, each field of the packed word is the one packed. -/
theorem decodeOfEncodeIsInstr : Obligations.DecodeOfEncodeIsInstr := by
  intro i hwf
  cases i with
  | modred rd ra rm =>
    have hb : FieldBounds 0 0 0 rm 0 ra rd 1 := by constructor <;> omega
    simp [encode, decode, decodeModred, pack_fields hb, regOf_val]
  | modmul rd ra rb rm =>
    have hb : FieldBounds 0 0 0 rm rb ra rd 2 := by constructor <;> omega
    simp [encode, decode, decodeModmul, pack_fields hb, regOf_val]
  | modexp rd ra rb rm chk =>
    have hchk := chk.toNat_lt
    have hb : FieldBounds chk.toNat 0 0 rm rb ra rd 3 := by constructor <;> omega
    simp [encode, decode, decodeModexp, pack_fields hb, regOf_val]
  | xgcd rd rx ry ra rb =>
    have hd : distinctDests rd rx ry = true := hwf
    have hb : FieldBounds 0 ry rx 0 rb ra rd 4 := by constructor <;> omega
    simp [encode, decode, decodeXgcd, pack_fields hb, regOf_val, hd]
  | modinv rd ra rm =>
    have hb : FieldBounds 0 0 0 rm 0 ra rd 5 := by constructor <;> omega
    simp [encode, decode, decodeModinv, pack_fields hb, regOf_val]
  | lincon rd rx ry ra rb rm =>
    have hd : distinctDests rd rx ry = true := hwf
    have hb : FieldBounds 0 ry rx rm rb ra rd 6 := by constructor <;> omega
    simp [encode, decode, decodeLincon, pack_fields hb, regOf_val, hd]

/-- `CHK` read as the flag of `modexp` loses nothing. -/
theorem toNat_fieldCHK (c : Word) : (fieldCHK c == 1).toNat = fieldCHK c := by
  have h := (field_bounds c).chk
  interval_cases fieldCHK c <;> rfl

/-- Settles O2: an accepted word is the packing of its fields, and its case of the decoder fixes each of them. -/
theorem encodeOfDecodeIsWord : Obligations.EncodeOfDecodeIsWord := by
  intro c i h
  obtain ⟨hres, hcase⟩ := decode_ok_cases h
  have hc := pack_of_fields c hres
  rcases hcase with ⟨hop, h⟩ | ⟨hop, h⟩ | ⟨hop, h⟩ | ⟨hop, h⟩ | ⟨hop, h⟩ | ⟨hop, h⟩
  · obtain ⟨hchk, hry, hrx, hrb, rd, ra, rm, hrd, hra, hrm, rfl⟩ := decodeModred_ok h
    rw [hchk, hry, hrx, hrb, hrd, hra, hrm, hop] at hc
    exact ⟨rfl, hc⟩
  · obtain ⟨hchk, hry, hrx, rd, ra, rb, rm, hrd, hra, hrb, hrm, rfl⟩ := decodeModmul_ok h
    rw [hchk, hry, hrx, hrd, hra, hrb, hrm, hop] at hc
    exact ⟨rfl, hc⟩
  · obtain ⟨hry, hrx, rd, ra, rb, rm, hrd, hra, hrb, hrm, rfl⟩ := decodeModexp_ok h
    rw [hry, hrx, hrd, hra, hrb, hrm, hop, ← toNat_fieldCHK] at hc
    exact ⟨rfl, hc⟩
  · obtain ⟨hchk, hrm, rd, rx, ry, ra, rb, hrd, hrx, hry, hra, hrb, hd, rfl⟩ := decodeXgcd_ok h
    rw [hchk, hry, hrx, hrm, hrd, hra, hrb, hop] at hc
    exact ⟨hd, hc⟩
  · obtain ⟨hchk, hry, hrx, hrb, rd, ra, rm, hrd, hra, hrm, rfl⟩ := decodeModinv_ok h
    rw [hchk, hry, hrx, hrb, hrd, hra, hrm, hop] at hc
    exact ⟨rfl, hc⟩
  · obtain ⟨hchk, rd, rx, ry, ra, rb, rm, hrd, hrx, hry, hra, hrb, hrm, hd, rfl⟩ := decodeLincon_ok h
    rw [hchk, hry, hrx, hrd, hra, hrb, hrm, hop] at hc
    exact ⟨hd, hc⟩

/-- The decoder reads `i` from `i`'s word and from no other. -/
theorem decode_eq_ok_iff {c : Word} {i : Instr} : decode c = .ok i ↔ i.wellFormed = true ∧ encode i = c :=
  ⟨encodeOfDecodeIsWord c i, fun ⟨hwf, hc⟩ => hc ▸ decodeOfEncodeIsInstr i hwf⟩

/-- Settles O5: each word of the table is the word of its command. -/
theorem assemblerExamplesDecode : Obligations.AssemblerExamplesDecode :=
  ⟨decodeOfEncodeIsInstr (.modred 2 0 1) rfl, decodeOfEncodeIsInstr (.modmul 3 0 1 2) rfl,
    decodeOfEncodeIsInstr (.modexp 3 0 1 2 false) rfl, decodeOfEncodeIsInstr (.modexp 3 0 1 2 true) rfl,
    decodeOfEncodeIsInstr (.xgcd 2 3 4 0 1) rfl, decodeOfEncodeIsInstr (.modinv 2 0 1) rfl,
    decodeOfEncodeIsInstr (.lincon 3 4 5 0 1 2) rfl⟩

/-! ### The mask table (30_encoding R74), field by field -/

/-- The nine fields of 30_encoding R70, from bit 31 down. -/
def fields (c : Word) : List Nat :=
  [fieldRES c, fieldCHK c, fieldRY c, fieldRX c, fieldRM c, fieldRB c, fieldRA c, fieldRD c, fieldOP c]

/-- A word whose `RES` is 0 is known by its fields. -/
theorem eq_iff_fields_eq {c d : Word} (hd : fieldRES d = 0) : c = d ↔ fields c = fields d := by
  refine ⟨congrArg fields, fun h => ?_⟩
  simp only [fields, List.cons.injEq] at h
  obtain ⟨hres, hchk, hry, hrx, hrm, hrb, hra, hrd, hop, _⟩ := h
  rw [← pack_of_fields c (hres.trans hd), ← pack_of_fields d hd, hchk, hry, hrx, hrm, hrb, hra, hrd, hop]

theorem slice_land (a b hi lo : Nat) : slice (a &&& b) hi lo = slice a hi lo &&& slice b hi lo := by
  rw [slice, Nat.and_div_two_pow, Nat.and_mod_two_pow]
  rfl

/-- A mask acts on each field by itself. -/
theorem fields_land (c m : Word) : fields (c &&& m) = List.zipWith (· &&& ·) (fields c) (fields m) := by
  simp only [fields, fieldRES, fieldCHK, fieldRY, fieldRX, fieldRM, fieldRB, fieldRA, fieldRD, fieldOP,
    BitVec.toNat_and, slice_land, List.zipWith_cons_cons, List.zipWith_nil_left]

/-- A mask of ones as wide as a field keeps the field. -/
theorem slice_land_ones (v hi lo : Nat) : slice v hi lo &&& (2 ^ (hi - lo + 1) - 1) = slice v hi lo := by
  rw [Nat.and_two_pow_sub_one_eq_mod, slice, Nat.mod_mod]

/-- The mask 8 of a register field admits the register numbers. -/
theorem land_eight_eq_zero_iff {f : Nat} (h : f < 16) : f &&& 8 = 0 ↔ f < 8 := by
  interval_cases f <;> decide

/-- What a row says field by field. In each of the six, the mask keeps `RES` and `OP` whole and bit 3 of `RA` and `RD`, and the match is
`OP` alone. -/
theorem MaskRow.admits_iff (r : MaskRow) (c : Word) {chk ry rx rm rb op : Nat}
    (hm : fields r.mask = [7, chk, ry, rx, rm, rb, 8, 8, 15]) (hp : fields r.pattern = [0, 0, 0, 0, 0, 0, 0, 0, op]) :
    r.admits c = true ↔
      (fieldRES c = 0 ∧ fieldCHK c &&& chk = 0 ∧ fieldRY c &&& ry = 0 ∧ fieldRX c &&& rx = 0 ∧ fieldRM c &&& rm = 0
        ∧ fieldRB c &&& rb = 0 ∧ fieldRA c < 8 ∧ fieldRD c < 8 ∧ fieldOP c = op)
      ∧ (r.distinct = true → distinctFields c = true) := by
  have hb := field_bounds c
  have hres : fieldRES c &&& 7 = fieldRES c := slice_land_ones c.toNat 31 29
  have hop : fieldOP c &&& 15 = fieldOP c := slice_land_ones c.toNat 3 0
  have hd : (!r.distinct || distinctFields c) = true ↔ (r.distinct = true → distinctFields c = true) := by
    cases r.distinct <;> simp
  have hmask : c &&& r.mask = r.pattern ↔ List.zipWith (· &&& ·) (fields c) (fields r.mask) = fields r.pattern := by
    rw [← fields_land, eq_iff_fields_eq (List.cons.inj hp).1]
  rw [MaskRow.admits, Bool.and_eq_true, beq_iff_eq, hmask, hm, hp, hd, fields]
  simp only [List.zipWith_cons_cons, List.zipWith_nil_left, List.cons.injEq, and_true, hres, hop,
    land_eight_eq_zero_iff hb.ra, land_eight_eq_zero_iff hb.rd]

/-- What the fields of a legal word are, row by row of 30_encoding R74. -/
def LegalFields (c : Word) : Prop :=
  (fieldRES c = 0 ∧ fieldCHK c = 0 ∧ fieldRY c = 0 ∧ fieldRX c = 0 ∧ fieldRM c < 8 ∧ fieldRB c = 0 ∧ fieldRA c < 8
      ∧ fieldRD c < 8 ∧ fieldOP c = 1)
    ∨ (fieldRES c = 0 ∧ fieldCHK c = 0 ∧ fieldRY c = 0 ∧ fieldRX c = 0 ∧ fieldRM c < 8 ∧ fieldRB c < 8 ∧ fieldRA c < 8
      ∧ fieldRD c < 8 ∧ fieldOP c = 2)
    ∨ (fieldRES c = 0 ∧ fieldRY c = 0 ∧ fieldRX c = 0 ∧ fieldRM c < 8 ∧ fieldRB c < 8 ∧ fieldRA c < 8
      ∧ fieldRD c < 8 ∧ fieldOP c = 3)
    ∨ ((fieldRES c = 0 ∧ fieldCHK c = 0 ∧ fieldRY c < 8 ∧ fieldRX c < 8 ∧ fieldRM c = 0 ∧ fieldRB c < 8 ∧ fieldRA c < 8
      ∧ fieldRD c < 8 ∧ fieldOP c = 4) ∧ distinctFields c = true)
    ∨ (fieldRES c = 0 ∧ fieldCHK c = 0 ∧ fieldRY c = 0 ∧ fieldRX c = 0 ∧ fieldRM c < 8 ∧ fieldRB c = 0 ∧ fieldRA c < 8
      ∧ fieldRD c < 8 ∧ fieldOP c = 5)
    ∨ ((fieldRES c = 0 ∧ fieldCHK c = 0 ∧ fieldRY c < 8 ∧ fieldRX c < 8 ∧ fieldRM c < 8 ∧ fieldRB c < 8 ∧ fieldRA c < 8
      ∧ fieldRD c < 8 ∧ fieldOP c = 6) ∧ distinctFields c = true)

/-- The mask table admits the legal fields: a mask 0 leaves a field free, 8 asks for a register number, and all ones for 0. -/
theorem legal_iff_legalFields (c : Word) : legal c = true ↔ LegalFields c := by
  have hb := field_bounds c
  have hchk : fieldCHK c &&& 1 = fieldCHK c := slice_land_ones c.toNat 28 28
  have hry : fieldRY c &&& 15 = fieldRY c := slice_land_ones c.toNat 27 24
  have hrx : fieldRX c &&& 15 = fieldRX c := slice_land_ones c.toNat 23 20
  have hrm : fieldRM c &&& 15 = fieldRM c := slice_land_ones c.toNat 19 16
  have hrb : fieldRB c &&& 15 = fieldRB c := slice_land_ones c.toNat 15 12
  have modred := MaskRow.admits_iff ⟨0x00000001, 0xFFF8F88F, false⟩ c
    (chk := 1) (ry := 15) (rx := 15) (rm := 8) (rb := 15) (op := 1) rfl rfl
  have modmul := MaskRow.admits_iff ⟨0x00000002, 0xFFF8888F, false⟩ c
    (chk := 1) (ry := 15) (rx := 15) (rm := 8) (rb := 8) (op := 2) rfl rfl
  have modexp := MaskRow.admits_iff ⟨0x00000003, 0xEFF8888F, false⟩ c
    (chk := 0) (ry := 15) (rx := 15) (rm := 8) (rb := 8) (op := 3) rfl rfl
  have xgcd := MaskRow.admits_iff ⟨0x00000004, 0xF88F888F, true⟩ c
    (chk := 1) (ry := 8) (rx := 8) (rm := 15) (rb := 8) (op := 4) rfl rfl
  have modinv := MaskRow.admits_iff ⟨0x00000005, 0xFFF8F88F, false⟩ c
    (chk := 1) (ry := 15) (rx := 15) (rm := 8) (rb := 15) (op := 5) rfl rfl
  have lincon := MaskRow.admits_iff ⟨0x00000006, 0xF888888F, true⟩ c
    (chk := 1) (ry := 8) (rx := 8) (rm := 8) (rb := 8) (op := 6) rfl rfl
  simp only [legal, maskTable, List.any_cons, List.any_nil, Bool.or_false, Bool.or_eq_true, modred, modmul, modexp, xgcd,
    modinv, lincon, hchk, hry, hrx, hrm, hrb, land_eight_eq_zero_iff hb.ry, land_eight_eq_zero_iff hb.rx,
    land_eight_eq_zero_iff hb.rm, land_eight_eq_zero_iff hb.rb, Nat.and_zero, true_and, forall_const, reduceCtorEq,
    IsEmpty.forall_iff, and_true, LegalFields]

/-! ### The decoder, field by field -/

theorem regOf_of_lt {f : Nat} (h : f < 8) : regOf f = some ⟨f, h⟩ :=
  dif_pos h

/-- R74's further condition on a word is R78's on the registers its fields name. -/
theorem distinctFields_eq {c : Word} {rd rx ry : RegId} (hrd : fieldRD c = rd) (hrx : fieldRX c = rx)
    (hry : fieldRY c = ry) : distinctFields c = distinctDests rd rx ry := by
  simp [distinctFields, distinctDests, hrd, hrx, hry, bne, BEq.beq, Fin.ext_iff]

/-- An accepted word has the legal fields of its operation's row. -/
theorem legalFields_of_decode {c : Word} {i : Instr} (h : decode c = .ok i) : LegalFields c := by
  obtain ⟨hres, ⟨hop, h⟩ | ⟨hop, h⟩ | ⟨hop, h⟩ | ⟨hop, h⟩ | ⟨hop, h⟩ | ⟨hop, h⟩⟩ := decode_ok_cases h
  · obtain ⟨hchk, hry, hrx, hrb, rd, ra, rm, hrd, hra, hrm, rfl⟩ := decodeModred_ok h
    exact .inl (by omega)
  · obtain ⟨hchk, hry, hrx, rd, ra, rb, rm, hrd, hra, hrb, hrm, rfl⟩ := decodeModmul_ok h
    exact .inr (.inl (by omega))
  · obtain ⟨hry, hrx, rd, ra, rb, rm, hrd, hra, hrb, hrm, rfl⟩ := decodeModexp_ok h
    exact .inr (.inr (.inl (by omega)))
  · obtain ⟨hchk, hrm, rd, rx, ry, ra, rb, hrd, hrx, hry, hra, hrb, hd, rfl⟩ := decodeXgcd_ok h
    exact .inr (.inr (.inr (.inl ⟨by omega, (distinctFields_eq hrd hrx hry).trans hd⟩)))
  · obtain ⟨hchk, hry, hrx, hrb, rd, ra, rm, hrd, hra, hrm, rfl⟩ := decodeModinv_ok h
    exact .inr (.inr (.inr (.inr (.inl (by omega)))))
  · obtain ⟨hchk, rd, rx, ry, ra, rb, rm, hrd, hrx, hry, hra, hrb, hrm, hd, rfl⟩ := decodeLincon_ok h
    exact .inr (.inr (.inr (.inr (.inr ⟨by omega, (distinctFields_eq hrd hrx hry).trans hd⟩))))

/-- Legal fields pass every test of their operation's case. -/
theorem decode_of_legalFields {c : Word} (h : LegalFields c) : ∃ i, decode c = .ok i := by
  rcases h with ⟨hres, hchk, hry, hrx, hrm, hrb, hra, hrd, hop⟩ | ⟨hres, hchk, hry, hrx, hrm, hrb, hra, hrd, hop⟩
    | ⟨hres, hry, hrx, hrm, hrb, hra, hrd, hop⟩ | ⟨⟨hres, hchk, hry, hrx, hrm, hrb, hra, hrd, hop⟩, hd⟩
    | ⟨hres, hchk, hry, hrx, hrm, hrb, hra, hrd, hop⟩ | ⟨⟨hres, hchk, hry, hrx, hrm, hrb, hra, hrd, hop⟩, hd⟩
  · simp [decode, decodeModred, hres, hop, hchk, hry, hrx, hrb, regOf_of_lt hrd, regOf_of_lt hra, regOf_of_lt hrm]
  · simp [decode, decodeModmul, hres, hop, hchk, hry, hrx, regOf_of_lt hrd, regOf_of_lt hra, regOf_of_lt hrb,
      regOf_of_lt hrm]
  · simp [decode, decodeModexp, hres, hop, hry, hrx, regOf_of_lt hrd, regOf_of_lt hra, regOf_of_lt hrb, regOf_of_lt hrm]
  · rw [distinctFields_eq (rd := ⟨_, hrd⟩) (rx := ⟨_, hrx⟩) (ry := ⟨_, hry⟩) rfl rfl rfl] at hd
    simp [decode, decodeXgcd, hres, hop, hchk, hrm, regOf_of_lt hrd, regOf_of_lt hrx, regOf_of_lt hry, regOf_of_lt hra,
      regOf_of_lt hrb, hd]
  · simp [decode, decodeModinv, hres, hop, hchk, hry, hrx, hrb, regOf_of_lt hrd, regOf_of_lt hra, regOf_of_lt hrm]
  · rw [distinctFields_eq (rd := ⟨_, hrd⟩) (rx := ⟨_, hrx⟩) (ry := ⟨_, hry⟩) rfl rfl rfl] at hd
    simp [decode, decodeLincon, hres, hop, hchk, regOf_of_lt hrd, regOf_of_lt hrx, regOf_of_lt hry, regOf_of_lt hra,
      regOf_of_lt hrb, regOf_of_lt hrm, hd]

/-- Settles O3: the decoder and the mask table both ask for the legal fields. -/
theorem decodeAcceptsMaskTable : Obligations.DecodeAcceptsMaskTable := by
  intro c
  rw [legal_iff_legalFields]
  exact ⟨fun ⟨_, h⟩ => legalFields_of_decode h, decode_of_legalFields⟩

/-! ### The number of legal words -/

/-- The destinations of `xgcd` and `lincon` that 30_encoding R78 allows. -/
def distinctTriples : Finset (RegId × RegId × RegId) :=
  Finset.univ.filter fun d => distinctDests d.1 d.2.1 d.2.2 = true

theorem card_distinctTriples : distinctTriples.card = 336 := by
  decide +kernel

/-- The operands of the six commands, in the order of the constructors, the destinations of `xgcd` and `lincon` as a triple. -/
abbrev Operands : Type :=
  (RegId × RegId × RegId) ⊕ (RegId × RegId × RegId × RegId) ⊕ (RegId × RegId × RegId × RegId × Bool)
    ⊕ ((RegId × RegId × RegId) × RegId × RegId) ⊕ (RegId × RegId × RegId)
    ⊕ ((RegId × RegId × RegId) × RegId × RegId × RegId)

/-- A command is one of six tuples of operands. -/
def operandsEquiv : Instr ≃ Operands where
  toFun
    | .modred rd ra rm => .inl (rd, ra, rm)
    | .modmul rd ra rb rm => .inr (.inl (rd, ra, rb, rm))
    | .modexp rd ra rb rm chk => .inr (.inr (.inl (rd, ra, rb, rm, chk)))
    | .xgcd rd rx ry ra rb => .inr (.inr (.inr (.inl ((rd, rx, ry), ra, rb))))
    | .modinv rd ra rm => .inr (.inr (.inr (.inr (.inl (rd, ra, rm)))))
    | .lincon rd rx ry ra rb rm => .inr (.inr (.inr (.inr (.inr ((rd, rx, ry), ra, rb, rm)))))
  invFun
    | .inl (rd, ra, rm) => .modred rd ra rm
    | .inr (.inl (rd, ra, rb, rm)) => .modmul rd ra rb rm
    | .inr (.inr (.inl (rd, ra, rb, rm, chk))) => .modexp rd ra rb rm chk
    | .inr (.inr (.inr (.inl ((rd, rx, ry), ra, rb)))) => .xgcd rd rx ry ra rb
    | .inr (.inr (.inr (.inr (.inl (rd, ra, rm))))) => .modinv rd ra rm
    | .inr (.inr (.inr (.inr (.inr ((rd, rx, ry), ra, rb, rm))))) => .lincon rd rx ry ra rb rm
  left_inv i := by cases i <;> rfl
  right_inv o := by rcases o with o | o | o | o | o | o <;> rfl

/-- The operands of the well-formed commands (30_encoding R78). -/
def wellFormedOperands : Finset Operands :=
  Finset.univ.disjSum (Finset.univ.disjSum (Finset.univ.disjSum ((distinctTriples ×ˢ Finset.univ).disjSum
    (Finset.univ.disjSum (distinctTriples ×ˢ Finset.univ)))))

theorem mem_wellFormedOperands_iff (i : Instr) : operandsEquiv i ∈ wellFormedOperands ↔ i.wellFormed = true := by
  cases i <;> simp [operandsEquiv, wellFormedOperands, distinctTriples, Instr.wellFormed]

/-- `8^3 + 8^4 + 2 * 8^4 + 336 * 8^2 + 8^3 + 336 * 8^3` (30_encoding R76). -/
theorem card_wellFormedOperands : wellFormedOperands.card = 206848 := by
  simp [wellFormedOperands, Finset.card_disjSum, Finset.card_product, card_distinctTriples]

theorem ncard_wellFormed : Set.ncard {i : Instr | i.wellFormed = true} = wellFormedOperands.card := by
  have h : {i : Instr | i.wellFormed = true} = operandsEquiv ⁻¹' (wellFormedOperands : Set Operands) := by
    ext i
    rw [Set.mem_ofPred_eq, Set.mem_preimage, Finset.mem_coe, mem_wellFormedOperands_iff]
  rw [h, Set.ncard_preimage_of_injective_subset_range operandsEquiv.injective fun o _ => operandsEquiv.surjective o,
    Set.ncard_coe_finset]

theorem encode_injOn : Set.InjOn encode {i | i.wellFormed = true} := by
  intro i hi j hj h
  have hdec : (.ok i : Except Illegal Instr) = .ok j := by
    rw [← decodeOfEncodeIsInstr i hi, ← decodeOfEncodeIsInstr j hj, h]
  exact Except.ok.inj hdec

theorem acceptedWords_eq_image : {c : Word | ∃ i, decode c = .ok i} = encode '' {i | i.wellFormed = true} := by
  ext c
  simp only [Set.mem_ofPred_eq, Set.mem_image, decode_eq_ok_iff]

/-- Settles O4: the legal words are the words of the well-formed commands, and different commands have different words. -/
theorem legalWordCount : Obligations.LegalWordCount :=
  calc Set.ncard {c : Word | ∃ i, decode c = .ok i}
    _ = Set.ncard {i : Instr | i.wellFormed = true} := by rw [acceptedWords_eq_image, encode_injOn.ncard_image]
    _ = wellFormedOperands.card := ncard_wellFormed
    _ = 206848 := card_wellFormedOperands

/-! ### Illegal words (30_encoding R77) -/

theorem decode_error_of_not_legalFields {c : Word} (h : ¬ LegalFields c) : ∃ e, decode c = .error e := by
  cases hd : decode c with
  | error e => exact ⟨e, rfl⟩
  | ok i => exact absurd (legalFields_of_decode hd) h

theorem LegalFields.fieldOP_range {c : Word} (h : LegalFields c) : 1 ≤ fieldOP c ∧ fieldOP c ≤ 6 := by
  unfold LegalFields at h
  omega

/-- Settles O6: no listed kind of word has legal fields, and the completion of a refused word is `raise` of E_ILLCMD. -/
theorem illegalWordsAreErrors : Obligations.IllegalWordsAreErrors := by
  refine ⟨fun c hc => decode_error_of_not_legalFields fun hl => ?_, fun s c e he hp => ?_⟩
  · have hop := hl.fieldOP_range
    have hzero : c ≠ 0 := by
      rintro rfl
      exact absurd hop (by decide)
    have hones : c ≠ 0xFFFFFFFF := by
      rintro rfl
      exact absurd hop (by decide)
    simp only [hzero, hones, false_or] at hc
    rcases hl with hl | hl | hl | ⟨hl, _⟩ | hl | ⟨hl, _⟩ <;> omega
  · have hw : s.hostWrite 3 c = s.accept c := s.writeCmd_accepts c hp
    rw [hw]
    refine ⟨rfl, rfl, (s.accept c).raise .illcmd, ?_, raise_endsError _ _, fun _ => rfl⟩
    rw [complete_eq_commit, State.accept_cmd, outcomeOf_illegal he, commit_error]

end Sys2Proof
end

section
/-! Proofs of the statements on the host scripts of 30_encoding R81: `ld`, `rd` and `mov` limb by limb, `clr`, and `run` with `wait`. -/

namespace Sys2Proof.Machine

/-! ### Registers and queue -/

theorem State.writeReg_self (s : State) (i : RegId) : s.writeReg i (s.readReg i) = s := by
  simp [State.writeReg, State.readReg]

theorem State.writeReg_writeReg (s : State) (i : RegId) (v w : Nat) :
    (s.writeReg i v).writeReg i w = s.writeReg i w := by
  simp [State.writeReg]

theorem State.writeReg_withHost (s : State) (i : RegId) (v : Nat) (rest : List HostAct) :
    (s.withHost rest).writeReg i v = (s.writeReg i v).withHost rest := rfl

theorem State.withHost_withHost (s : State) (acts rest : List HostAct) :
    (s.withHost acts).withHost rest = s.withHost rest := rfl

/-! ### Writing a register limb by limb -/

/-- Outside BUSY an action that presents a limb write is that write, as a step (20_memory R58). -/
theorem step_presents_limb {s : State} {a : HostAct} {rest : List HostAct} {i : RegId} {j : Nat} {w : Word}
    (hp : s.phase ≠ .busy) (hr : s.rst = false) (hh : s.host = a :: rest) (hj : j < s.limbs)
    (hw : s.writeOf a = some (limbIndex s.limbs i j, w)) :
    step s = .next ((s.writeReg i (setLimb (s.readReg i) j w)).withHost rest) := by
  have hwrite : (s.withHost rest).hostWrite (limbIndex s.limbs i j) w = (s.withHost rest).writeLimb i j w :=
    hostWrite_limbIndex i w hj
  rw [step_presents s (engineMoves_notBusy s hp) hr hh hw, s.takeTurn_notBusy hp, hwrite,
    (s.withHost rest).writeLimb_notBusy i j w hp]
  rfl

/-- `acts` present, in every state that has returned these words, the writes of the limbs `j`, `j + 1`, ... of `N` to `x[i]`. -/
def LoadsLimbs (L : Nat) (i : RegId) (N : Nat) (returned : List Word) : Nat → List HostAct → Prop
  | _, [] => True
  | j, a :: acts =>
    (∀ s : State, s.returned = returned → s.writeOf a = some (limbIndex L i j, limbOf N j))
      ∧ LoadsLimbs L i N returned (j + 1) acts

/-- Where the limbs below `j` are those of `N` already, the writes of all the others leave `N` in the register. -/
theorem run_loadsLimbs {s : State} {i : RegId} {N j n : Nat} {acts rest : List HostAct} (hp : s.phase ≠ .busy)
    (hr : s.rst = false) (hx : s.readReg i < 2 ^ (32 * s.limbs)) (hN : N < 2 ^ (32 * s.limbs))
    (hlen : acts.length = n) (hn : j + n = s.limbs) (hlow : ∀ m, m < j → limbOf (s.readReg i) m = limbOf N m)
    (hacts : LoadsLimbs s.limbs i N s.returned j acts) (hh : s.host = acts ++ rest) :
    Sys2Proof.core.run n s = .next ((s.writeReg i N).withHost rest) := by
  induction acts generalizing s j n with
  | nil =>
    subst hlen
    have hj : j = s.limbs := hn
    have hval : s.readReg i = N := eq_of_limbs _ _ _ hx hN fun m hm => hlow m (hj ▸ hm)
    have hhost : s.host = rest := hh
    rw [← hval, s.writeReg_self, ← hhost]
    rfl
  | cons a acts ih =>
    subst hlen
    obtain ⟨hw, hacts⟩ := hacts
    rw [List.length_cons] at hn
    have hj : j < s.limbs := by omega
    have hstep := step_presents_limb hp hr hh hj (hw s rfl)
    have hx' : setLimb (s.readReg i) j (limbOf N j) < 2 ^ (32 * s.limbs) := setLimb_lt _ j s.limbs _ hj hx
    have hlow' : ∀ m, m < j + 1 → limbOf (setLimb (s.readReg i) j (limbOf N j)) m = limbOf N m := by
      intro m hm
      by_cases hmj : m = j
      · rw [hmj, limbOf_setLimb_same]
      · rw [limbOf_setLimb_ne _ _ _ _ hmj, hlow m (by omega)]
    have hrest := ih (s := (s.writeReg i (setLimb (s.readReg i) j (limbOf N j))).withHost (acts ++ rest)) (j := j + 1)
      hp hr (by simpa using hx') hN rfl (by simp; omega) (by simpa using hlow') hacts rfl
    rw [State.writeReg_withHost, State.writeReg_writeReg, State.withHost_withHost] at hrest
    exact (run_succ hstep acts.length).trans hrest

theorem loadLimbs_length (L : Nat) (i : RegId) (N j n : Nat) : (loadLimbs L i N j n).length = n := by
  induction n generalizing j with
  | zero => rfl
  | succ n ih => rw [loadLimbs, List.length_cons, ih]

theorem loadLimbs_loadsLimbs (L : Nat) (i : RegId) (N : Nat) (returned : List Word) (j n : Nat) :
    LoadsLimbs L i N returned j (loadLimbs L i N j n) := by
  induction n generalizing j with
  | zero => trivial
  | succ n ih => exact ⟨fun _ _ => rfl, ih (j + 1)⟩

/-- Settles O57: `ld` writes every limb of `N`. -/
theorem ldLoadsRegister : Obligations.LdLoadsRegister :=
  fun s i N _ hp hr hx hN hh => run_loadsLimbs hp hr hx hN (loadLimbs_length _ _ _ _ _) (Nat.zero_add _) nofun
    (loadLimbs_loadsLimbs s.limbs i N s.returned 0 s.limbs) hh

/-! ### Reading a register limb by limb -/

/-- The limbs `j` to `j + n - 1` of `v`, lowest first. -/
def limbsOf (v j n : Nat) : List Word :=
  (List.range' j n).map (limbOf v)

@[simp] theorem limbsOf_length (v j n : Nat) : (limbsOf v j n).length = n := by
  simp [limbsOf]

theorem limbsOf_succ (v j n : Nat) : limbsOf v j (n + 1) = limbOf v j :: limbsOf v (j + 1) n := by
  simp [limbsOf, List.range'_succ]

/-- The value of limbs is a digit of `v`, `n` words wide (20_memory R54). -/
theorem valueOfLimbs_limbsOf (v j n : Nat) : valueOfLimbs (limbsOf v j n) = v / 2 ^ (32 * j) % 2 ^ (32 * n) := by
  induction n generalizing j with
  | zero => simp [limbsOf, valueOfLimbs, Nat.mod_one]
  | succ n ih =>
    rw [limbsOf_succ, valueOfLimbs, ih, limbOf_toNat, Nat.mul_succ, Nat.mul_succ, Nat.add_comm (32 * n), pow_add, pow_add,
      Nat.mod_mul, Nat.div_div_eq_div_mul]

theorem valueOfLimbs_of_lt {v n : Nat} (h : v < 2 ^ (32 * n)) : valueOfLimbs (limbsOf v 0 n) = v := by
  rw [valueOfLimbs_limbsOf, Nat.mul_zero, pow_zero, Nat.div_one, Nat.mod_eq_of_lt h]

/-- Outside BUSY the reads of `rd` return the limbs and change nothing else (20_memory R56). -/
theorem run_readLimbs {s : State} {i : RegId} {j n : Nat} {rest : List HostAct} (hp : s.phase ≠ .busy)
    (hr : s.rst = false) (hn : j + n ≤ s.limbs) (hh : s.host = readLimbs s.limbs i j n ++ rest) :
    Sys2Proof.core.run n s
      = .next { s with host := rest, returned := s.returned ++ limbsOf (s.readReg i) j n } := by
  induction n generalizing s j with
  | zero =>
    have hhost : s.host = rest := hh
    rw [← hhost, limbsOf, List.range'_zero, List.map_nil, List.append_nil]
    rfl
  | succ n ih =>
    have hstep := step_read s (engineMoves_notBusy s hp) hr hh
    rw [s.takeTurn_notBusy hp, hostRead_limbIndex i (by omega)] at hstep
    have hrest := ih (s := s.deliver (limbOf (s.readReg i) j) (readLimbs s.limbs i (j + 1) n ++ rest)) (j := j + 1)
      hp hr (by rw [State.deliver_limbs]; omega) rfl
    rw [State.deliver_returned, State.deliver_readReg, List.append_assoc, List.singleton_append, ← limbsOf_succ] at hrest
    exact (run_succ hstep n).trans hrest

/-- Settles O58: `rd` returns every limb of the register. -/
theorem rdReturnsRegister : Obligations.RdReturnsRegister :=
  fun s i _ hp hr hx hh => ⟨limbsOf (s.readReg i) 0 s.limbs, limbsOf_length _ _ _, valueOfLimbs_of_lt hx,
    run_readLimbs hp hr (Nat.zero_add _).le hh⟩

/-! ### `clr` and `mov` -/

theorem loadBack_length (L : Nat) (i : RegId) (j n : Nat) : (loadBack L i j n).length = n := by
  induction n generalizing j with
  | zero => rfl
  | succ n ih => rw [loadBack, List.length_cons, ih]

/-- After an `rd`, limb `j` is found as many reads back as there are limbs above it. -/
theorem State.wordBack_limbsOf {s : State} {old : List Word} {v j n L : Nat} (h : s.returned = old ++ limbsOf v 0 L)
    (hj : j + (n + 1) = L) : s.wordBack n = some (limbOf v j) := by
  have hjL : j < L := by omega
  rw [State.wordBack_append s h (by rw [limbsOf_length]; omega), limbsOf_length, show L - 1 - n = j by omega]
  simp [limbsOf, hjL]

theorem loadBack_loadsLimbs (i : RegId) (N : Nat) (old : List Word) {L j n : Nat} (hj : j + n = L) :
    LoadsLimbs L i N (old ++ limbsOf N 0 L) j (loadBack L i j n) := by
  induction n generalizing j with
  | zero => trivial
  | succ n ih =>
    refine ⟨fun s hs => ?_, ih (by omega)⟩
    rw [State.writeOf, State.wordBack_limbsOf hs hj]
    rfl

/-- The CTRL write of `clr` is an acknowledge, and its IE bit is the current IE. -/
theorem step_clr_acknowledges {s : State} {rest : List HostAct} (hm : s.engineMoves = false) (hr : s.rst = false)
    (hh : s.host = .clr :: rest) : step s = .next (s.takeTurn.withHost rest).acknowledge := by
  obtain ⟨h2, h1, h0⟩ := s.clrWord_bits
  have hctrl : (s.takeTurn.withHost rest).hostWrite 1 s.clrWord = (s.takeTurn.withHost rest).writeCtrl s.clrWord := rfl
  have hie : { s.takeTurn.withHost rest with ie := s.ie } = s.takeTurn.withHost rest := by
    rw [← s.takeTurn_ie]
    rfl
  rw [step_clr s hm hr hh, hctrl, writeCtrl_acknowledge h2 h1, h0, hie]

/-- Settles O60: `clr` is an acknowledge; `mov` is the reads of `rd` and then the writes of the words they returned. -/
theorem clrAndMovScripts : Obligations.ClrAndMovScripts := by
  refine ⟨fun s rest hm hr hh => ⟨step_clr_acknowledges hm hr hh, ?_⟩, fun s xd xs rest hp hr hd hs hh => ?_⟩
  · rw [State.acknowledge_ie, State.takeTurn_ie]
  · refine ⟨limbsOf (s.readReg xs) 0 s.limbs, limbsOf_length _ _ _, valueOfLimbs_of_lt hs, ?_⟩
    rw [scriptMov, List.append_assoc] at hh
    let u : State :=
      { s with host := loadBack s.limbs xd 0 s.limbs ++ rest, returned := s.returned ++ limbsOf (s.readReg xs) 0 s.limbs }
    have hread : Sys2Proof.core.run s.limbs s = .next u := run_readLimbs hp hr (Nat.zero_add _).le hh
    have hwrite := run_loadsLimbs (s := u) hp hr hd hs (loadBack_length _ _ _ _) (Nat.zero_add _) nofun
      (loadBack_loadsLimbs xd (s.readReg xs) s.returned (Nat.zero_add s.limbs)) rfl
    rw [Nat.two_mul, run_add hread]
    exact hwrite

/-! ### `run` and `wait` -/

/-- While a command runs, a poll of `wait` reads BUSY and leaves the `wait` to do again. -/
theorem step_wait_busy {s : State} {rest : List HostAct} (hm : s.engineMoves = false) (hr : s.rst = false)
    (hp : s.phase = .busy) (hh : s.host = .wait :: rest) :
    s.statusWord.getLsbD 0 = true
      ∧ step s = .next (s.withAgents (.wait :: rest) s.turns.tail (s.returned ++ [s.statusWord])) := by
  have hbit : s.statusWord.getLsbD 0 = true := by
    rw [s.statusWord_fields.1, hp]
    rfl
  refine ⟨hbit, ?_⟩
  rw [step_wait s hm hr hh, if_pos hbit, s.takeTurn_busy hp]
  rfl

/-- Outside BUSY the poll reads BUSY = 0 and ends the `wait`. -/
theorem step_wait_ends {s : State} {rest : List HostAct} (hr : s.rst = false) (hp : s.phase ≠ .busy)
    (hh : s.host = .wait :: rest) : step s = .next (s.deliver s.statusWord rest) := by
  have hbit : s.statusWord.getLsbD 0 = false := s.statusWord_fields.1.trans (decide_eq_false hp)
  rw [step_wait s (engineMoves_notBusy s hp) hr hh, if_neg (by rw [hbit]; exact nofun), s.takeTurn_notBusy hp]

/-- The state once the accepted word has completed (60_exceptions R131). -/
def State.completed (s : State) : State :=
  s.commit (outcomeOf s.cmd s.readReg)

theorem State.completed_withAgents (s : State) (host : List HostAct) (turns : List Agent) (returned : List Word) :
    (s.withAgents host turns returned).completed = s.completed.withAgents host turns returned :=
  s.commit_withAgents host turns returned _

/-- The accepted word has completed from `s`, and a `wait` ended: its polls returned `ws` and then the STATUS of the outcome. -/
def WaitEnds (s t : State) (rest : List HostAct) (ws : List Word) : Prop :=
  ∃ turns, t = s.completed.withAgents rest turns (s.returned ++ ws ++ [s.completed.statusWord])

/-- A poll before the completion puts its word first. -/
theorem WaitEnds.of_poll {s t : State} {acts rest : List HostAct} {turns : List Agent} {w : Word} {ws : List Word}
    (h : WaitEnds (s.withAgents acts turns (s.returned ++ [w])) t rest ws) : WaitEnds s t rest (w :: ws) := by
  obtain ⟨turns', rfl⟩ := h
  refine ⟨turns', ?_⟩
  rw [State.completed_withAgents, List.append_cons s.returned w ws]
  rfl

/-- The engine completes the command, and the poll after it ends the `wait`. -/
theorem run_wait_engine {s : State} {rest : List HostAct} (hm : s.engineMoves = true) (hh : s.host = .wait :: rest) :
    ∃ t, WaitEnds s t rest [] ∧ Sys2Proof.core.run 2 s = .next t := by
  have hdone : step s = .next (s.completed.withAgents (.wait :: rest) s.takeTurn.turns s.returned) := by
    rw [step_engine s hm, s.takeTurn_eq_withAgents, State.commit_withAgents, hh]
    rfl
  have hp : s.completed.phase ≠ .busy := by
    rcases commit_phase s (outcomeOf s.cmd s.readReg) with h | h <;> rw [State.completed, h] <;> exact nofun
  have hr : s.completed.rst = false := (State.commit_rst s _).trans (engineMoves_busy s hm).2
  have hend := step_wait_ends (s := s.completed.withAgents (.wait :: rest) s.takeTurn.turns s.returned) hr hp rfl
  exact ⟨_, ⟨s.takeTurn.turns, by rw [List.append_nil]; rfl⟩, (run_succ hdone 1).trans (run_succ hend 0)⟩

/-- A `wait` ends whatever the turns are: by induction on them, each turn of the host's is one poll more. -/
theorem run_wait {s : State} {rest : List HostAct} (hp : s.phase = .busy) (hr : s.rst = false)
    (hh : s.host = .wait :: rest) :
    ∃ k t ws, (∀ w ∈ ws, w.getLsbD 0 = true) ∧ WaitEnds s t rest ws ∧ Sys2Proof.core.run k s = .next t := by
  induction ht : s.turns generalizing s with
  | nil =>
    have hm : s.engineMoves = true := by simp [State.engineMoves, hp, hr, ht]
    obtain ⟨t, hend, hrun⟩ := run_wait_engine hm hh
    exact ⟨2, t, [], nofun, hend, hrun⟩
  | cons a turns ih =>
    cases hm : s.engineMoves with
    | true =>
      obtain ⟨t, hend, hrun⟩ := run_wait_engine hm hh
      exact ⟨2, t, [], nofun, hend, hrun⟩
    | false =>
      obtain ⟨hbit, hstep⟩ := step_wait_busy hm hr hp hh
      rw [ht, List.tail_cons] at hstep
      obtain ⟨k, t, ws, hws, hend, hrun⟩ :=
        ih (s := s.withAgents (.wait :: rest) turns (s.returned ++ [s.statusWord])) hp hr rfl rfl
      exact ⟨k + 1, t, s.statusWord :: ws, List.forall_mem_cons.2 ⟨hbit, hws⟩, hend.of_poll,
        (run_succ hstep k).trans hrun⟩

/-- `run` from IDLE or DONE: the command's word is accepted (10_state R33). -/
theorem step_run {s : State} {i : Instr} {rest : List HostAct} (hp : s.phase = .idle ∨ s.phase = .done)
    (hr : s.rst = false) (hh : s.host = scriptRun i ++ rest) : step s = .next ((s.withHost rest).accept (encode i)) := by
  have hwrite : s.host = .write 3 (encode i) :: rest := hh
  have hnb : s.phase ≠ .busy := by rcases hp with h | h <;> rw [h] <;> exact nofun
  have haccept : (s.withHost rest).hostWrite 3 (encode i) = (s.withHost rest).accept (encode i) :=
    State.writeCmd_accepts _ _ hp
  rw [step_write s (engineMoves_notBusy s hnb) hr hwrite, s.takeTurn_notBusy hnb, haccept]

/-- Settles O59: `run` is accepted, and the `wait` after it ends with the STATUS of the completed command. -/
theorem runThenWaitDelivers : Obligations.RunThenWaitDelivers := by
  intro s i rest hwf hp hr hh
  let u : State := (s.withHost (.wait :: rest)).accept (encode i)
  have hstep : step s = .next u := step_run hp hr hh
  obtain ⟨k, t, ws, hws, ⟨turns, rfl⟩, hrun⟩ := run_wait (s := u) rfl hr rfl
  have hout : u.completed = u.commit (resultOf i s.readReg) :=
    congrArg u.commit (outcomeOf_ok (decodeOfEncodeIsInstr i hwf) _)
  refine ⟨k + 1, _, ws, (run_succ hstep k).trans hrun, rfl, fun e he => ?_, fun c hc => ?_, rfl, hws⟩
  · rw [hout, he]
    exact ⟨rfl, rfl, fun _ => rfl⟩
  · rw [hout, hc]
    exact ⟨rfl, rfl, rfl, rfl, fun r v hm => retire_readReg_mem u hc hm,
      fun r hn => State.writeRegs_readReg_notMem c.writes u r hn⟩

end Sys2Proof.Machine
end

section
/-! Proofs of the statements on 40_reduction_multiply: the laws of `mulmod` (R94), and the completion of MODRED (R90) and MODMUL (R93). -/

namespace Sys2Proof.Machine

/-! ### The laws of `mulmod` (40 R94) -/

theorem mulmod_comm (a b m : Nat) : mulmod a b m = mulmod b a m := by
  rw [mulmod_eq, mulmod_eq, Nat.mul_comm]

/-- Reducing an inner product changes nothing, so both sides are the residue of the triple product. -/
theorem mulmod_assoc (a b c m : Nat) : mulmod (mulmod a b m) c m = mulmod a (mulmod b c m) m := by
  calc mulmod (mulmod a b m) c m
      = a * b * c % m := Nat.mod_mul_mod (a * b) c m
    _ = a * (b * c) % m := by rw [Nat.mul_assoc]
    _ = mulmod a (mulmod b c m) m := (Nat.mul_mod_mod a (b * c) m).symm

theorem mulmod_one_right (a m : Nat) : mulmod a 1 m = a % m := by
  rw [mulmod_eq, Nat.mul_one]

theorem mulmod_modulus_one (a b : Nat) : mulmod a b 1 = 0 :=
  Nat.mod_one (a * b)

/-- Settles O8: each law is one of residues, of the product in the integers. -/
theorem mulmodLaws : Obligations.MulmodLaws := fun m _ =>
  ⟨fun a b => mulmod_comm a b m, fun a b c => mulmod_assoc a b c m, fun a => mulmod_one_right a m, mulmod_modulus_one,
    fun _ _ => rfl⟩

/-! ### Commands that write one register -/

/-- A command whose result is one register value ends in DONE with that value and changes nothing else (60_exceptions R131). The value is
computed before the write, so the destination may be one of the sources. -/
theorem exec_plain_endsDone {i : Instr} {s : State} {rd : RegId} {v : Nat}
    (h : resultOf i s.readReg = .ok (Commit.plain [(rd, v)])) :
    ∃ t, exec i s = .next t ∧ t.readReg rd = v ∧ EndsDone s t false false false [rd] :=
  ⟨s.retire (Commit.plain [(rd, v)]), by rw [exec_eq_commit, h, commit_ok],
    retire_readReg_mem s h List.mem_cons_self, retire_endsDone s (Commit.plain [(rd, v)])⟩

theorem modredResult_eq_ok (rd : RegId) (a : Nat) {m : Nat} (hm : m ≠ 0) :
    modredResult rd a m = .ok (Commit.plain [(rd, a % m)]) := by
  rw [modredResult, if_neg hm, red_eq]

theorem modmulResult_eq_ok (rd : RegId) (a b : Nat) {m : Nat} (hm : m ≠ 0) :
    modmulResult rd a b m = .ok (Commit.plain [(rd, a * b % m)]) := by
  rw [modmulResult, if_neg hm, mulmod_eq]

/-- Settles O15: with a modulus that is not 0 the result of MODRED is the residue. -/
theorem modredCompletes : Obligations.ModredCompletes := by
  intro rd ra rm s hm
  exact exec_plain_endsDone (i := .modred rd ra rm) (modredResult_eq_ok rd (s.readReg ra) hm)

/-- Settles O16: with a modulus that is not 0 the result of MODMUL is the residue of the exact product. -/
theorem modmulCompletes : Obligations.ModmulCompletes := by
  intro rd ra rb rm s hm
  exact exec_plain_endsDone (i := .modmul rd ra rb rm) (modmulResult_eq_ok rd (s.readReg ra) (s.readReg rb) hm)

end Sys2Proof.Machine
end

section
/-! Proofs of the statements on 41_modexp: `modpow` is the integer power reduced (R102), the completion of MODEXP (R101), and the check of
its base (R103). -/

namespace Sys2Proof.Machine

/-! ### The loop is the power (41 R102) -/

theorem red_modEq (v m : Nat) : red v m ≡ v [MOD m] :=
  Nat.mod_modEq v m

theorem red_mod (v m : Nat) : red v m % m = red v m :=
  Nat.mod_mod v m

theorem mulmod_modEq (a b m : Nat) : mulmod a b m ≡ a * b [MOD m] :=
  Nat.mod_modEq (a * b) m

/-- The reduced start values of both scans, their accumulator 1 and the base, stand for 1 and the base. -/
theorem red_one_pow_mul_red_pow_modEq (b e k m : Nat) : red 1 m ^ k * red b m ^ e ≡ b ^ e [MOD m] := by
  calc red 1 m ^ k * red b m ^ e
      ≡ 1 ^ k * b ^ e [MOD m] := ((red_modEq 1 m).pow k).mul ((red_modEq b m).pow e)
    _ = b ^ e := by rw [one_pow, one_mul]

/-- All `bitlen e` bits of the exponent are scanned, so the base's power is `e`. -/
theorem modpow_eq_pow_mod (b e m : Nat) : modpow b e m = b ^ e % m := by
  rw [modpow, modpowScan_eq _ _ _ _ _ (red_mod 1 m), Nat.mod_eq_of_lt (lt_two_pow_bitlen e)]
  exact red_one_pow_mul_red_pow_modEq b e _ m

theorem modpow_modulus_one (b e : Nat) : modpow b e 1 = 0 := by
  rw [modpow_eq_pow_mod, Nat.mod_one]

theorem modpow_exponent_zero (b : Nat) {m : Nat} (hm : 2 ≤ m) : modpow b 0 m = 1 := by
  rw [modpow_eq_pow_mod, pow_zero, Nat.mod_eq_of_lt hm]

theorem modpow_base_zero {e : Nat} (he : 1 ≤ e) (m : Nat) : modpow 0 e m = 0 := by
  rw [modpow_eq_pow_mod, Nat.zero_pow he, Nat.zero_mod]

theorem modpow_exponent_one (b m : Nat) : modpow b 1 m = b % m := by
  rw [modpow_eq_pow_mod, pow_one]

theorem modpow_base_mod (b e m : Nat) : modpow (b % m) e m = modpow b e m := by
  rw [modpow_eq_pow_mod, modpow_eq_pow_mod, ← Nat.pow_mod]

theorem modpow_exponent_add (b e1 e2 m : Nat) : modpow b (e1 + e2) m = mulmod (modpow b e1 m) (modpow b e2 m) m := by
  simp only [modpow_eq_pow_mod, mulmod_eq]
  rw [pow_add, Nat.mul_mod]

/-! ### The other scan (41 R102 item 7) -/

/-- The exponent's bits from bit `i` on: bit `i` itself, and twice the bits above it. -/
theorem div_two_pow_mod_two_pow_succ (e i n : Nat) :
    e / 2 ^ i % 2 ^ (n + 1) = (e.testBit i).toNat + 2 * (e / 2 ^ (i + 1) % 2 ^ n) := by
  rw [pow_succ', Nat.mod_mul, Nat.toNat_testBit, pow_succ 2 i, Nat.div_div_eq_div_mul]

/-- What the remaining `n` passes do to the accumulator: the running square to the power of the bits still to scan. -/
theorem modpowLsbScan_eq (e m n i p acc : Nat) (hacc : acc % m = acc) :
    modpowLsbScan e m n i p acc = acc * p ^ (e / 2 ^ i % 2 ^ n) % m := by
  induction n generalizing i p acc with
  | zero => simp [modpowLsbScan, Nat.mod_one, hacc]
  | succ n ih =>
    have pass : ∀ x : Nat, x ≡ acc * p ^ (e.testBit i).toNat [MOD m] →
        x * mulmod p p m ^ (e / 2 ^ (i + 1) % 2 ^ n) % m = acc * p ^ (e / 2 ^ i % 2 ^ (n + 1)) % m := by
      intro x hx
      have hsq : mulmod p p m ≡ p ^ 2 [MOD m] := by
        rw [pow_two]
        exact mulmod_modEq p p m
      rw [div_two_pow_mod_two_pow_succ, pow_add p, pow_mul p, ← mul_assoc]
      exact hx.mul (hsq.pow _)
    rw [modpowLsbScan]
    cases hb : e.testBit i with
    | true =>
      rw [if_pos rfl, ih _ _ (mulmod acc p m) (red_mod (acc * p) m)]
      exact pass _ (by simpa [hb] using mulmod_modEq acc p m)
    | false =>
      rw [if_neg Bool.false_ne_true, ih _ _ _ hacc]
      exact pass acc (by rw [hb, Bool.toNat_false, pow_zero, mul_one])

theorem modpowLsb_eq_modpow (b e m : Nat) : modpowLsb b e m = modpow b e m := by
  have hscan := modpowLsbScan_eq e m (bitlen e) 0 (red b m) (red 1 m) (red_mod 1 m)
  rw [pow_zero, Nat.div_one, Nat.mod_eq_of_lt (lt_two_pow_bitlen e)] at hscan
  have hstart : red 1 m * red b m ^ e ≡ b ^ e [MOD m] := by simpa only [pow_one] using red_one_pow_mul_red_pow_modEq b e 1 m
  rw [modpowLsb, modpow_eq_pow_mod]
  exact hscan.trans hstart

/-- Settles O9: the loop is the power reduced, and the consequences are those of powers and residues; the other scan by its own loop. -/
theorem modpowIsPower : Obligations.ModpowIsPower := fun b e m _ =>
  ⟨modpow_eq_pow_mod b e m, modpow_modulus_one b e, modpow_exponent_zero b, fun he => modpow_base_zero he m, modpow_exponent_one b m,
    (modpow_base_mod b e m).symm, fun e1 e2 => modpow_exponent_add b e1 e2 m, modpowLsb_eq_modpow b e m⟩

/-! ### MODEXP with and without CHK (41 R101, R103) -/

theorem modexpResult_eq_ok (rd : RegId) {chk : Bool} {b m : Nat} (e : Nat) (hm : m ≠ 0) (hb : chk = true → b < m) :
    modexpResult rd chk b e m = .ok (Commit.plain [(rd, b ^ e % m)]) := by
  have hchk : ¬ (chk && decide (m ≤ b)) = true := by simpa using hb
  rw [modexpResult, if_neg hm, if_neg hchk, modpow_eq_pow_mod]

theorem modexpResult_chk_range (rd : RegId) {b m : Nat} (e : Nat) (hm : m ≠ 0) (hb : m ≤ b) :
    modexpResult rd true b e m = .error .range := by
  simp [modexpResult, hm, hb]

/-- Where the check cannot fail, or is not reached because the modulus is 0, it changes nothing (41 R103, 60_exceptions R136). -/
theorem modexpResult_chk_eq (rd : RegId) {b m : Nat} (e : Nat) (h : m = 0 ∨ b < m) :
    modexpResult rd true b e m = modexpResult rd false b e m := by
  rcases h with rfl | hb
  · rfl
  · have hm : m ≠ 0 := by omega
    exact (modexpResult_eq_ok rd e hm fun _ => hb).trans (modexpResult_eq_ok (chk := false) rd e hm nofun).symm

/-- Settles O17: with a modulus that is not 0 and a base the check admits, the result of MODEXP is the power reduced. -/
theorem modexpCompletes : Obligations.ModexpCompletes := by
  intro rd ra rb rm chk s hm hb
  exact exec_plain_endsDone (i := .modexp rd ra rb rm chk) (modexpResult_eq_ok rd (s.readReg rb) hm hb)

/-- Settles O25: the results with and without CHK agree where the check passes, and where it fails the result is E_RANGE; without CHK the
command completes for every base, and reducing the base first does not change its power's residue. -/
theorem chkOnlyChecksBase : Obligations.ChkOnlyChecksBase := by
  intro rd ra rb rm s
  refine ⟨fun h => ?_, fun hm hb => ?_, fun hm => ?_⟩
  · have hres : resultOf (.modexp rd ra rb rm true) s.readReg = resultOf (.modexp rd ra rb rm false) s.readReg :=
      modexpResult_chk_eq rd (s.readReg rb) h
    rw [exec_eq_commit, exec_eq_commit, hres]
  · exact commandWritesOnlyDestinations.2 (.modexp rd ra rb rm true) s .range
      (modexpResult_chk_range rd (s.readReg rb) hm hb)
  · obtain ⟨t, hexec, hrd, hend⟩ := modexpCompletes rd ra rb rm false s hm nofun
    exact ⟨t, hexec, hrd.trans (Nat.pow_mod _ _ _), hrd, hend⟩

end Sys2Proof.Machine
end

section
/-! Proofs of the statements on 42_xgcd: `xgcd` as the rows of R110, its properties (R112), the bounds of its coefficients (R113), and the
completion of XGCD (R111). -/

namespace Sys2Proof.Machine

/-! ### The rows and the result (42 R110) -/

/-- Row `k` is reached: no remainder before it is 0, so the loop of 42 R110 makes at least `k` passes. -/
abbrev RowReached (a b k : Nat) : Prop :=
  ∀ j, j < k → (euclidRows a b j).r ≠ 0

/-- Settles O10: the fuel `b + 1` exceeds the first remainder `b`, so the loop ends by its own condition. -/
theorem xgcdIsEuclidLoop : Obligations.XgcdIsEuclidLoop := by
  intro a b
  obtain ⟨k, hk, h0, hne, heq⟩ := xgcdLoop_stops (b + 1) (EuclidRow.start a b) (Nat.lt_succ_self b)
  simp only [← euclidRows_eq_passes] at h0 hne heq
  exact ⟨k, Nat.le_succ_of_le hk, h0, hne, heq⟩

/-- Only one reached row has remainder 0, so `xgcd` can be read off any such row. -/
theorem xgcd_eq_of_row {a b k : Nat} (hk : RowReached a b k) (h0 : (euclidRows a b k).r = 0) :
    xgcd a b = ((euclidRows a b k).oldR, (euclidRows a b k).oldS, (euclidRows a b k).oldT) := by
  obtain ⟨n, hn0, hn, heq⟩ := xgcd_eq_row a b
  obtain rfl : n = k := le_antisymm (not_lt.1 fun h => hn k h h0) (not_lt.1 fun h => hk n h hn0)
  exact heq

/-! ### The properties of `xgcd` (42 R112) -/

/-- The relation that defines Bezout coefficients, from the row relation of the last row (42 R112 item 1). -/
theorem xgcd_bezout (a b : Nat) : (a : Int) * (xgcd a b).2.1 + b * (xgcd a b).2.2 = (xgcd a b).1 := by
  obtain ⟨k, _, _, heq⟩ := xgcd_eq_row a b
  rw [heq]
  exact (euclidRows_good a b k).lin_old

theorem gcd_le_max (a b : Nat) : Nat.gcd a b ≤ max a b :=
  Nat.le_of_lt_succ (gcd_lt_of_lt (Nat.lt_succ_of_le (le_max_left a b)) (Nat.lt_succ_of_le (le_max_right a b)))

theorem xgcd_zero_right (a : Nat) : xgcd a 0 = (a, 1, 0) :=
  xgcd_eq_of_row (k := 0) nofun rfl

/-- A divisor of `a` is the gcd after one pass (42 R112 items 3 and 5). -/
theorem xgcd_of_dvd {a b : Nat} (hb : 0 < b) (h : b ∣ a) : xgcd a b = (b, 0, 1) := by
  have hk : RowReached a b 1 := by
    intro j hj
    obtain rfl : j = 0 := by omega
    exact hb.ne'
  have h0 : (euclidRows a b 1).r = 0 := ((EuclidRow.start a b).pass_r).trans (Nat.mod_eq_zero_of_dvd h)
  exact xgcd_eq_of_row hk h0

/-- The row with the coefficients of the two operands exchanged. -/
def EuclidRow.swap (e : EuclidRow) : EuclidRow := ⟨e.oldR, e.r, e.oldT, e.t, e.oldS, e.s⟩

theorem EuclidRow.pass_swap (e : EuclidRow) : e.swap.pass = e.pass.swap := rfl

/-- With `a < b` the first pass has quotient 0 and only exchanges the operands (42 R112 item 4). -/
theorem euclidRows_succ_eq_swap {a b : Nat} (h : a < b) (k : Nat) :
    euclidRows a b (k + 1) = (euclidRows b a k).swap := by
  induction k with
  | zero => simp [euclidRows, EuclidRow.start, EuclidRow.pass, EuclidRow.swap, Nat.div_eq_of_lt h]
  | succ k ih => rw [euclidRows, ih, EuclidRow.pass_swap, euclidRows]

theorem xgcd_of_lt {a b : Nat} (h : a < b) : xgcd a b = ((xgcd b a).1, (xgcd b a).2.2, (xgcd b a).2.1) := by
  obtain ⟨k, h0, hk, heq⟩ := xgcd_eq_row b a
  have hrow := euclidRows_succ_eq_swap h
  have hreach : RowReached a b (k + 1) := by
    intro j hj
    cases j with
    | zero => exact Nat.ne_zero_of_lt h
    | succ j =>
      rw [hrow j]
      exact hk j (Nat.lt_of_succ_lt_succ hj)
  have hstop : (euclidRows a b (k + 1)).r = 0 := by
    rw [hrow k]
    exact h0
  rw [xgcd_eq_of_row hreach hstop, heq, hrow k]
  rfl

theorem xgcd_one_left {b : Nat} (hb : b ≠ 1) : xgcd 1 b = (1, 1, 0) := by
  rcases Nat.eq_zero_or_pos b with rfl | hpos
  · exact xgcd_zero_right 1
  · rw [xgcd_of_lt (by omega : 1 < b), xgcd_of_dvd Nat.one_pos (one_dvd b)]

/-- Settles O11: the row relations are kept by every pass and give the relation of the result; the gcd is the first component; the special
cases end after no pass, one pass, or the exchanging pass. -/
theorem xgcdProperties : Obligations.XgcdProperties := by
  intro a b
  exact ⟨fun k _ => ⟨(euclidRows_good a b k).lin_old, (euclidRows_good a b k).lin⟩, xgcd_bezout a b, xgcd_fst a b,
    by rw [xgcd_fst, Nat.gcd_eq_zero_iff], by rw [xgcd_fst]; exact gcd_le_max a b,
    fun k hk => ⟨(euclidRows a b k).pass_r_lt hk, (euclidRows a b k).pass_r⟩, xgcd_zero_right a,
    fun hb => xgcd_of_dvd hb (dvd_zero b), xgcd_zero_right 0, fun _ h => xgcd_of_lt h,
    fun ha => xgcd_of_dvd ha dvd_rfl, xgcd_of_dvd Nat.one_pos (one_dvd a), xgcd_one_left⟩

/-! ### The size of the coefficients (42 R113) -/

/-- The larger the old remainder, the smaller the current coefficients. -/
theorem EuclidRow.Good.coefficients_le_div {a b n : Nat} {e : EuclidRow} (g : e.Good a b) (hn : 0 < n) (h : n ≤ e.oldR) :
    e.s.natAbs ≤ b / n ∧ e.t.natAbs ≤ a / n := by
  have hs : e.s.natAbs * n ≤ e.oldR * e.s.natAbs := (Nat.mul_le_mul_left _ h).trans_eq (Nat.mul_comm ..)
  have ht : e.t.natAbs * n ≤ e.oldR * e.t.natAbs := (Nat.mul_le_mul_left _ h).trans_eq (Nat.mul_comm ..)
  rw [Nat.le_div_iff_mul_le hn, Nat.le_div_iff_mul_le hn]
  exact ⟨hs.trans (Nat.le.intro g.size_s), ht.trans (Nat.le.intro g.size_t)⟩

theorem EuclidRow.Good.gcd_le_oldR {a b : Nat} {e : EuclidRow} (g : e.Good a b) (h : 0 < e.oldR) : Nat.gcd a b ≤ e.oldR := by
  rw [← g.gcd]
  exact Nat.gcd_le_left e.r h

/-- The gcd divides both remainders, so it fits between them when they differ. -/
theorem EuclidRow.Good.two_mul_gcd_le_oldR {a b : Nat} {e : EuclidRow} (g : e.Good a b) (hr : e.r ≠ 0) (h : e.r < e.oldR) :
    2 * Nat.gcd a b ≤ e.oldR := by
  have hle : Nat.gcd e.oldR e.r ≤ e.r := Nat.gcd_le_right e.oldR (Nat.pos_of_ne_zero hr)
  have hsub : Nat.gcd e.oldR e.r ≤ e.oldR - e.r :=
    Nat.le_of_dvd (Nat.sub_pos_of_lt h) (Nat.dvd_sub (Nat.gcd_dvd_left ..) (Nat.gcd_dvd_right ..))
  rw [← g.gcd]
  omega

/-- In the last row the current coefficients are the operands divided by the gcd. -/
theorem EuclidRow.Good.coefficients_eq_div {a b : Nat} {e : EuclidRow} (g : e.Good a b) (hg : 0 < Nat.gcd a b) (h0 : e.r = 0) :
    e.s.natAbs = b / Nat.gcd a b ∧ e.t.natAbs = a / Nat.gcd a b := by
  have hs := g.size_s
  have ht := g.size_t
  have hold : e.oldR = Nat.gcd a b := by rw [← g.gcd, h0, Nat.gcd_zero_right]
  rw [h0, Nat.zero_mul, Nat.add_zero, hold] at hs ht
  exact ⟨Nat.eq_div_of_mul_eq_right hg.ne' hs, Nat.eq_div_of_mul_eq_right hg.ne' ht⟩

/-- The current coefficients of a reached row; the start row has `t = 1`, which may exceed `a / g`. -/
theorem row_coefficients_le {a b k : Nat} (hg : 0 < Nat.gcd a b) (hk : RowReached a b k) :
    (euclidRows a b k).s.natAbs ≤ max 1 (b / Nat.gcd a b) ∧ (euclidRows a b k).t.natAbs ≤ max 1 (a / Nat.gcd a b) := by
  cases k with
  | zero => simp [euclidRows, EuclidRow.start]
  | succ k =>
    have good := euclidRows_good a b (k + 1)
    have hpos : 0 < (euclidRows a b (k + 1)).oldR := Nat.pos_of_ne_zero (hk k k.lt_succ_self)
    obtain ⟨hs, ht⟩ := good.coefficients_le_div hg (good.gcd_le_oldR hpos)
    exact ⟨hs.trans (le_max_right ..), ht.trans (le_max_right ..)⟩

/-- The old coefficients of a row are the current ones of the row before. -/
theorem row_old_coefficients_le {a b k : Nat} (hg : 0 < Nat.gcd a b) (hk : RowReached a b k) :
    (euclidRows a b k).oldS.natAbs ≤ max 1 (b / Nat.gcd a b) ∧ (euclidRows a b k).oldT.natAbs ≤ max 1 (a / Nat.gcd a b) := by
  cases k with
  | zero => simp [euclidRows, EuclidRow.start]
  | succ k => exact row_coefficients_le hg fun j hj => hk j (Nat.lt_succ_of_lt hj)

/-- The coefficients returned are the current ones of the row before the last. After the first pass that row's remainders differ, so its
old remainder is at least twice the gcd. -/
theorem xgcd_coefficients_le_half {a b : Nat} (hg : 0 < Nat.gcd a b) :
    (xgcd a b).2.1.natAbs ≤ max 1 (b / (2 * Nat.gcd a b)) ∧ (xgcd a b).2.2.natAbs ≤ max 1 (a / (2 * Nat.gcd a b)) := by
  obtain ⟨k, _, hk, heq⟩ := xgcd_eq_row a b
  rw [heq]
  match k with
  | 0 => simp [euclidRows, EuclidRow.start]
  | 1 => simp [euclidRows, EuclidRow.start, EuclidRow.pass]
  | k + 2 =>
    have good := euclidRows_good a b (k + 1)
    have hlt : (euclidRows a b (k + 1)).r < (euclidRows a b (k + 1)).oldR := (euclidRows a b k).pass_r_lt (hk k (by omega))
    have htwo := good.two_mul_gcd_le_oldR (hk (k + 1) (by omega)) hlt
    obtain ⟨hs, ht⟩ := good.coefficients_le_div (by omega) htwo
    exact ⟨hs.trans (le_max_right ..), ht.trans (le_max_right ..)⟩

/-- No returned coefficient needs more than the `W` bits of a register. -/
theorem xgcd_coefficients_lt {a b B : Nat} (hB : 1 < B) (ha : a < B) (hb : b < B) :
    (xgcd a b).2.1.natAbs < B ∧ (xgcd a b).2.2.natAbs < B := by
  obtain ⟨hs, ht⟩ := xgcd_coefficients_le a b
  exact ⟨hs.trans_lt (max_lt hb hB), ht.trans_lt (max_lt ha hB)⟩

/-- Settles O12: the bounds follow from the size relations that every row keeps, the signs from its sign relations. -/
theorem bezoutCoefficientBounds : Obligations.BezoutCoefficientBounds := by
  intro a b hg
  rw [xgcd_fst] at hg ⊢
  obtain ⟨hsHalf, htHalf⟩ := xgcd_coefficients_le_half hg
  refine ⟨hsHalf, htHalf, xgcd_signs a b, fun k hk => ?_, fun L hL ha hb => ?_⟩
  · obtain ⟨hs, ht⟩ := row_coefficients_le hg hk
    obtain ⟨hs', ht'⟩ := row_old_coefficients_le hg hk
    refine ⟨hs', hs, ht', ht, fun h0 => ?_⟩
    obtain ⟨hs0, ht0⟩ := (euclidRows_good a b k).coefficients_eq_div hg h0
    exact ⟨hs0, ht0, (euclidRows_good a b k).sign_new⟩
  · exact xgcd_coefficients_lt (Nat.one_lt_two_pow (by omega)) ha hb

/-! ### XGCD (42 R111) -/

/-- The host recovers a coefficient from its magnitude and its sign flag. -/
theorem signedValue_neg_natAbs (z : Int) : signedValue (neg z) z.natAbs = z := by
  rcases lt_or_ge z 0 with hz | hz
  · rw [neg, decide_eq_true hz, signedValue, if_pos rfl]
    omega
  · rw [neg, decide_eq_false hz.not_gt, signedValue, if_neg Bool.false_ne_true]
    omega

/-- A zero has sign flag 0 (00_scope R15). -/
theorem neg_of_natAbs_eq_zero {z : Int} (h : z.natAbs = 0) : neg z = false := by
  rw [Int.natAbs_eq_zero.1 h]
  rfl

theorem xgcdResult_eq_ok {rd rx ry : RegId} (a b : Nat) (hd : distinctDests rd rx ry = true) :
    xgcdResult rd rx ry a b = .ok (xgcdCommit rd rx ry (xgcd a b).1 (xgcd a b).2.1 (xgcd a b).2.2) := by
  rw [xgcdResult, if_pos hd]

/-- Settles O18: with distinct destinations the result is the commit of the triple, whose three writes all stand; the triple is computed
before them, so a destination may be a source. -/
theorem xgcdCompletes : Obligations.XgcdCompletes := by
  intro rd rx ry ra rb s hd
  have hres : resultOf (.xgcd rd rx ry ra rb) s.readReg = .ok _ := xgcdResult_eq_ok (s.readReg ra) (s.readReg rb) hd
  have hrd := retire_readReg_mem s hres (r := rd) (.head _)
  have hrx := retire_readReg_mem s hres (r := rx) (.tail _ (.head _))
  have hry := retire_readReg_mem s hres (r := ry) (.tail _ (.tail _ (.head _)))
  refine ⟨s.retire _, by rw [exec_eq_commit, hres, commit_ok], ?_⟩
  rw [hrd, hrx, hry]
  have hsx := signedValue_neg_natAbs (xgcd (s.readReg ra) (s.readReg rb)).2.1
  have hsy := signedValue_neg_natAbs (xgcd (s.readReg ra) (s.readReg rb)).2.2
  refine ⟨xgcd_fst _ _, hsx, hsy, ?_, neg_of_natAbs_eq_zero, neg_of_natAbs_eq_zero, retire_endsDone s _⟩
  simpa only [xgcdCommit, State.retire_sx, State.retire_sy, hsx, hsy] using xgcd_bezout (s.readReg ra) (s.readReg rb)

end Sys2Proof.Machine
end

section
/-! Proofs of the statements on 43_inverse_lincon: `modinv` is the modular inverse (R122), `lincon` describes exactly the solutions of the
congruence (R126), and the completion of MODINV (R121) and LINCON (R125). -/

namespace Sys2Proof.Machine

/-! ### The Bezout coefficient modulo the spacing (43 R120, R124) -/

/-- The first Bezout coefficient of `xgcd(a mod m, m)`, reduced into `[0, m / gcd a m)`: what both algorithms multiply by. -/
def bezoutResidue (a m : Nat) : Nat :=
  ((xgcd (red a m) m).2.1 % ((m / Nat.gcd a m : Nat) : Int)).toNat

/-- `modinv` answers the reduced coefficient where the gcd is 1; the spacing is then the modulus itself. -/
theorem modinv_eq (a m : Nat) : modinv a m = if Nat.gcd a m = 1 then some (bezoutResidue a m) else none := by
  have hg : (xgcd (red a m) m).1 = Nat.gcd a m := by rw [xgcd_fst, gcd_red]
  by_cases h : Nat.gcd a m = 1
  · simp [modinv, bezoutResidue, hg, h]
  · simp [modinv, hg, h]

/-- `lincon` multiplies the reduced coefficient by the right-hand side over the gcd, where the gcd divides it. -/
theorem lincon_of_dvd {a b m : Nat} (h : Nat.gcd a m ∣ b) :
    lincon a b m
      = some (mulmod (red b m / Nat.gcd a m) (bezoutResidue a m) (m / Nat.gcd a m), Nat.gcd a m, m / Nat.gcd a m) := by
  have hg : (xgcd (red a m) m).1 = Nat.gcd a m := by rw [xgcd_fst, gcd_red]
  have hr : red b m % Nat.gcd a m = 0 := Nat.mod_eq_zero_of_dvd ((Nat.dvd_mod_iff (Nat.gcd_dvd_right a m)).2 h)
  simp [lincon, bezoutResidue, hg, hr]

theorem spacing_pos {m : Nat} (a : Nat) (hm : 0 < m) : 0 < m / Nat.gcd a m :=
  Nat.div_gcd_pos_of_pos_right a hm

theorem dvd_mul_spacing (a m : Nat) : m ∣ a * (m / Nat.gcd a m) := by
  rw [← Nat.mul_div_assoc a (Nat.gcd_dvd_right a m), ← Nat.div_mul_right_comm (Nat.gcd_dvd_left a m)]
  exact dvd_mul_left m _

/-- The Bezout relation modulo `m`: reducing the coefficient by the spacing changes `a` times it by multiples of `m`. -/
theorem mul_bezoutResidue_modEq (a : Nat) {m : Nat} (hm : 0 < m) : a * bezoutResidue a m ≡ Nat.gcd a m [MOD m] := by
  have hbez := xgcd_bezout (red a m) m
  rw [xgcd_fst, gcd_red] at hbez
  have hp : ((m / Nat.gcd a m : Nat) : Int) ≠ 0 := Int.natCast_ne_zero.2 (spacing_pos a hm).ne'
  have hdvd : (m : Int) ∣ a * (m / Nat.gcd a m : Nat) := mod_cast dvd_mul_spacing a m
  have ha : (a : Int) ≡ red a m [ZMOD m] := Int.natCast_modEq_iff.2 (red_modEq a m).symm
  rw [← Int.natCast_modEq_iff, Int.natCast_mul, bezoutResidue, Int.toNat_of_nonneg (Int.emod_nonneg _ hp)]
  calc (a : Int) * ((xgcd (red a m) m).2.1 % (m / Nat.gcd a m : Nat))
      ≡ a * (xgcd (red a m) m).2.1 [ZMOD m] := (Int.mod_modEq _ _).mul_left'.of_dvd hdvd
    _ ≡ red a m * (xgcd (red a m) m).2.1 [ZMOD m] := ha.mul_right _
    _ ≡ red a m * (xgcd (red a m) m).2.1 + m * (xgcd (red a m) m).2.2 [ZMOD m] := Int.modEq_add_fac_self.symm
    _ = Nat.gcd a m := hbez

/-- Two factors of `a` give the same product modulo `m` exactly where they agree modulo the spacing (43 R124). -/
theorem mul_modEq_mul_iff {a m x y : Nat} (hm : 0 < m) : a * x ≡ a * y [MOD m] ↔ x ≡ y [MOD m / Nat.gcd a m] := by
  constructor
  · intro h
    rw [Nat.gcd_comm]
    exact h.cancel_left_div_gcd hm
  · exact fun h => (h.mul_left' a).of_dvd (dvd_mul_spacing a m)

/-! ### `modinv` is the inverse (43 R122) -/

/-- A value below the modulus is the answer exactly where it solves `a * v = 1` modulo `m`: the coefficient does, a solution makes the gcd 1,
and two solutions agree modulo `m`. -/
theorem modinv_eq_some_iff {a m v : Nat} (hm : 1 ≤ m) : modinv a m = some v ↔ v < m ∧ mulmod a v m = red 1 m := by
  have hres : Nat.gcd a m = 1 → a * bezoutResidue a m ≡ 1 [MOD m] := fun h => h ▸ mul_bezoutResidue_modEq a hm
  constructor
  · intro h
    refine ⟨modinv_lt (Nat.ne_of_gt hm) h, ?_⟩
    rw [modinv_eq] at h
    split at h
    · next hg =>
      cases h
      exact hres hg
    · cases h
  · rintro ⟨hv, h⟩
    have hg : Nat.gcd a m = 1 := Nat.coprime_of_mul_modEq_one v h
    have heq : modinv a m = some (bezoutResidue a m) := by rw [modinv_eq, if_pos hg]
    have hmod : bezoutResidue a m ≡ v [MOD m] := by
      simpa [hg] using (mul_modEq_mul_iff hm).1 ((hres hg).trans h.symm)
    rw [heq, hmod.eq_of_lt_of_lt (modinv_lt (Nat.ne_of_gt hm) heq) hv]

theorem modinv_eq_none_iff (a m : Nat) : modinv a m = none ↔ Nat.gcd a m ≠ 1 := by
  simp [modinv_eq]

theorem exists_modinv {a m : Nat} (h : Nat.gcd a m = 1) : ∃ v, modinv a m = some v :=
  ⟨bezoutResidue a m, by rw [modinv_eq, if_pos h]⟩

/-- A multiple of the modulus has the modulus as its gcd (43 R122 item 5, R126 item 4). -/
theorem gcd_eq_of_mod_eq_zero {a m : Nat} (h : a % m = 0) : Nat.gcd a m = m :=
  Nat.gcd_eq_right (Nat.dvd_of_mod_eq_zero h)

theorem modinv_pred {m : Nat} (hm : 2 ≤ m) : modinv (m - 1) m = some (m - 1) := by
  obtain ⟨n, rfl⟩ : ∃ n, m = n + 2 := ⟨m - 2, by omega⟩
  refine (modinv_eq_some_iff (by omega)).2 ⟨by omega, ?_⟩
  have hsq : (n + 1) * (n + 1) = 1 + (n + 2) * n := by ring
  exact (congrArg (· % (n + 2)) hsq).trans (Nat.add_mul_mod_self_left 1 (n + 2) n)

/-- The inverse of the inverse is the residue: multiplication is symmetric and takes residues (43 R122 item 7). -/
theorem modinv_modinv {a m v : Nat} (hm : 1 ≤ m) (h : modinv a m = some v) : modinv v m = some (red a m) := by
  obtain ⟨_, hv⟩ := (modinv_eq_some_iff hm).1 h
  refine (modinv_eq_some_iff hm).2 ⟨red_lt a hm, ?_⟩
  calc mulmod v (red a m) m = mulmod v a m := Nat.mul_mod_mod v a m
    _ = mulmod a v m := mulmod_comm v a m
    _ = red 1 m := hv

/-- Settles O13: every property is one of the values below `m` that solve `a * v = 1` modulo `m`. -/
theorem modinvProperties : Obligations.ModinvProperties := by
  intro a m hm
  refine ⟨gcd_red a m, modinv_eq_none_iff a m, fun v hv => ?_, ?_, fun h1 ha => ?_, ?_, modinv_pred,
    fun v => modinv_modinv hm, ?_⟩
  · obtain ⟨hlt, hmul⟩ := (modinv_eq_some_iff hm).1 hv
    exact ⟨hlt, hmul, fun u hu h => Option.some.inj (((modinv_eq_some_iff hm).2 ⟨hu, h⟩).symm.trans hv)⟩
  · exact (modinv_eq_some_iff le_rfl).2 ⟨Nat.one_pos, mulmod_modulus_one a 0⟩
  · have hg := gcd_eq_of_mod_eq_zero ha
    exact ⟨hg, (modinv_eq_none_iff a m).2 (by omega)⟩
  · refine (modinv_eq_some_iff hm).2 ⟨red_lt 1 hm, ?_⟩
    rw [mulmod_comm, mulmod_one_right, red_mod]
  · exact (modinv_eq_some_iff (by decide)).2 ⟨by decide, by decide⟩

/-! ### `lincon` is the set of solutions (43 R126) -/

/-- The answer is the gcd, the spacing, and the one solution below the spacing: the algorithm's value is one, and two solutions agree modulo
the spacing. -/
theorem lincon_eq_some_iff {a b m z n p : Nat} (hm : 1 ≤ m) :
    lincon a b m = some (z, n, p)
      ↔ n = Nat.gcd a m ∧ p = m / Nat.gcd a m ∧ z < m / Nat.gcd a m ∧ a * z ≡ b [MOD m] := by
  have hsol : Nat.gcd a m ∣ b →
      a * mulmod (red b m / Nat.gcd a m) (bezoutResidue a m) (m / Nat.gcd a m) ≡ b [MOD m] := by
    intro hdvd
    have hred : Nat.gcd a m ∣ red b m := (Nat.dvd_mod_iff (Nat.gcd_dvd_right a m)).2 hdvd
    calc a * mulmod (red b m / Nat.gcd a m) (bezoutResidue a m) (m / Nat.gcd a m)
        ≡ a * (red b m / Nat.gcd a m * bezoutResidue a m) [MOD m] := (mul_modEq_mul_iff hm).2 (mulmod_modEq _ _ _)
      _ = red b m / Nat.gcd a m * (a * bezoutResidue a m) := Nat.mul_left_comm ..
      _ ≡ red b m / Nat.gcd a m * Nat.gcd a m [MOD m] := (mul_bezoutResidue_modEq a hm).mul_left _
      _ = red b m := Nat.div_mul_cancel hred
      _ ≡ b [MOD m] := red_modEq b m
  have hlt : mulmod (red b m / Nat.gcd a m) (bezoutResidue a m) (m / Nat.gcd a m) < m / Nat.gcd a m :=
    red_lt _ (spacing_pos a hm)
  constructor
  · intro h
    have hdvd : Nat.gcd a m ∣ b := by
      by_contra hd
      rw [(lincon_eq_none_iff a b m).2 hd] at h
      cases h
    rw [lincon_of_dvd hdvd] at h
    cases h
    exact ⟨rfl, rfl, hlt, hsol hdvd⟩
  · rintro ⟨rfl, rfl, hz, h⟩
    have hdvd : Nat.gcd a m ∣ b := (h.dvd_iff (Nat.gcd_dvd_right a m)).1 ((Nat.gcd_dvd_left a m).mul_right z)
    have hmod := (mul_modEq_mul_iff hm).1 ((hsol hdvd).trans h.symm)
    rw [lincon_of_dvd hdvd, hmod.eq_of_lt_of_lt hlt hz]

theorem exists_lincon {a b m : Nat} (h : Nat.gcd a m ∣ b) : ∃ z, lincon a b m = some (z, Nat.gcd a m, m / Nat.gcd a m) :=
  ⟨_, lincon_of_dvd h⟩

/-- The values below `n * p` in the residue class of `z` modulo `p` are `z`, `z + p`, ..., `z + (n - 1) * p`. -/
theorem modEq_iff_exists_add_mul {w z n p : Nat} (hz : z < p) (hw : w < n * p) :
    w ≡ z [MOD p] ↔ ∃ k, k < n ∧ w = z + k * p := by
  constructor
  · intro h
    have hrem : w % p = z := Nat.mod_eq_of_modEq h hz
    refine ⟨w / p, Nat.div_lt_of_lt_mul (Nat.mul_comm n p ▸ hw), ?_⟩
    rw [← hrem, Nat.mul_comm, Nat.mod_add_div]
  · rintro ⟨k, _, rfl⟩
    exact Nat.add_mul_mod_self_right z k p

/-- The triple gives exactly the solutions below the modulus (43 R126 item 2). -/
theorem lincon_solutions {a b m z n p : Nat} (hm : 1 ≤ m) (h : lincon a b m = some (z, n, p)) {w : Nat} (hw : w < m) :
    a * w % m = b % m ↔ ∃ k, k < n ∧ w = z + k * p := by
  obtain ⟨rfl, rfl, hz, hsol⟩ := (lincon_eq_some_iff hm).1 h
  have hcount : Nat.gcd a m * (m / Nat.gcd a m) = m := Nat.mul_div_cancel' (Nat.gcd_dvd_right a m)
  calc a * w ≡ b [MOD m]
      ↔ a * w ≡ a * z [MOD m] := ⟨fun h => h.trans hsol.symm, fun h => h.trans hsol⟩
    _ ↔ w ≡ z [MOD m / Nat.gcd a m] := mul_modEq_mul_iff hm
    _ ↔ ∃ k, k < Nat.gcd a m ∧ w = z + k * (m / Nat.gcd a m) := modEq_iff_exists_add_mul hz (hcount.symm ▸ hw)

theorem add_mul_lt_mul {z k n p : Nat} (hz : z < p) (hk : k < n) : z + k * p < n * p := by
  calc z + k * p < p + k * p := Nat.add_lt_add_right hz _
    _ = (k + 1) * p := by ring
    _ ≤ n * p := Nat.mul_le_mul_right p hk

/-- With `a` coprime to the modulus the one solution is the right-hand side times the inverse (43 R126 item 3). -/
theorem lincon_of_modinv {a m v : Nat} (b : Nat) (hm : 1 ≤ m) (h : modinv a m = some v) :
    lincon a b m = some (mulmod b v m, 1, m) := by
  have hg : Nat.gcd a m = 1 := by
    by_contra hne
    rw [(modinv_eq_none_iff a m).2 hne] at h
    cases h
  obtain ⟨_, hv⟩ := (modinv_eq_some_iff hm).1 h
  rw [lincon_eq_some_iff hm, hg, Nat.div_one]
  refine ⟨rfl, rfl, red_lt _ hm, ?_⟩
  calc a * mulmod b v m ≡ a * (b * v) [MOD m] := (mulmod_modEq b v m).mul_left a
    _ = b * (a * v) := Nat.mul_left_comm ..
    _ ≡ b * 1 [MOD m] := Nat.ModEq.mul_left b hv
    _ = b := Nat.mul_one b

/-- Every residue solves `a * z = b` modulo `m` where both sides are multiples of `m` (43 R126 item 4). -/
theorem lincon_of_mod_eq_zero {a b m : Nat} (hm : 1 ≤ m) (ha : a % m = 0) (hb : b % m = 0) :
    lincon a b m = some (0, m, 1) := by
  rw [lincon_eq_some_iff hm, gcd_eq_of_mod_eq_zero ha, Nat.div_self hm]
  exact ⟨rfl, rfl, Nat.one_pos, hb.symm⟩

/-- Settles O14: the triple is the gcd, the spacing and the one solution below it; the special values are such solutions. -/
theorem linconProperties : Obligations.LinconProperties := by
  intro a b m hm
  refine ⟨lincon_eq_none_iff a b m, fun z n p h => ?_, fun hg => ?_, fun ha => ⟨fun hb => ?_, lincon_of_mod_eq_zero hm ha⟩,
    lincon_of_mod_eq_zero le_rfl (Nat.mod_one a) (Nat.mod_one b), fun hb => ?_, fun z n p h => ?_⟩
  · obtain ⟨hn, hp, hz, _⟩ := (lincon_eq_some_iff hm).1 h
    have hzp : z < p := hp ▸ hz
    have hcount : n * p = m := by rw [hn, hp, Nat.mul_div_cancel' (Nat.gcd_dvd_right a m)]
    exact ⟨hzp, hcount, fun k hk => hcount ▸ add_mul_lt_mul hzp hk, fun w hw => lincon_solutions hm h hw⟩
  · obtain ⟨v, hv⟩ := exists_modinv hg
    have hone : mulmod 1 v m = v := by
      rw [mulmod_comm, mulmod_one_right, Nat.mod_eq_of_lt (modinv_lt (Nat.ne_of_gt hm) hv)]
    exact ⟨v, hv, lincon_of_modinv b hm hv, (lincon_of_modinv 1 hm hv).trans (by rw [hone])⟩
  · rw [lincon_eq_none_iff, gcd_eq_of_mod_eq_zero ha]
    exact fun hdvd => hb (Nat.mod_eq_zero_of_dvd hdvd)
  · exact ⟨_, _, (lincon_eq_some_iff hm).2 ⟨rfl, rfl, spacing_pos a hm, hb.symm⟩⟩
  · obtain ⟨_, hp, hz, _⟩ := (lincon_eq_some_iff hm).1 h
    obtain ⟨hzm, hnm, hpm⟩ := lincon_le (Nat.ne_of_gt hm) h
    exact ⟨hp ▸ hz, hpm, hnm, fun W hW => ⟨hzm.trans_lt hW, hnm.trans_lt hW, hpm.trans_lt hW⟩⟩

/-! ### MODINV (43 R121) and LINCON (43 R125) -/

theorem modinvResult_eq_ok (rd : RegId) {a m v : Nat} (hm : m ≠ 0) (h : modinv a m = some v) :
    modinvResult rd a m = .ok (Commit.plain [(rd, v)]) := by
  simp [modinvResult, hm, h]

/-- Settles O19: with a modulus coprime to the value the result of MODINV is the inverse, which R122 says is the only one. -/
theorem modinvCompletes : Obligations.ModinvCompletes := by
  intro rd ra rm s hm hg
  obtain ⟨v, hv⟩ := exists_modinv hg
  obtain ⟨_, _, hinv, _⟩ := modinvProperties (s.readReg ra) (s.readReg rm) (Nat.pos_of_ne_zero hm)
  obtain ⟨hlt, hmul, huniq⟩ := hinv v hv
  obtain ⟨t, hexec, hrd, hend⟩ := exec_plain_endsDone (i := .modinv rd ra rm) (modinvResult_eq_ok rd hm hv)
  rw [← hrd] at hlt hmul huniq
  exact ⟨t, hexec, hlt, hmul, huniq, hend⟩

section
variable {rd rx ry : RegId} {a b m : Nat}

theorem linconResult_eq_ok {z n p : Nat} (hd : distinctDests rd rx ry = true) (hm : m ≠ 0)
    (h : lincon a b m = some (z, n, p)) : linconResult rd rx ry a b m = .ok (Commit.plain [(rd, z), (rx, n), (ry, p)]) := by
  simp [linconResult, hd, hm, h]

theorem linconResult_eq_empty (hd : distinctDests rd rx ry = true) (hm : m ≠ 0) (h : lincon a b m = none) :
    linconResult rd rx ry a b m = .ok (emptyCommit rd rx ry) := by
  simp [linconResult, hd, hm, h]

end

/-- A command with a result ends in DONE with each value of the result in its register, and changes nothing else (60_exceptions R131). -/
theorem exec_endsDone {i : Instr} {s : State} {c : Commit} (h : resultOf i s.readReg = .ok c) :
    ∃ t, exec i s = .next t ∧ (∀ p ∈ c.writes, t.readReg p.1 = p.2)
      ∧ EndsDone s t c.sx c.sy c.empty (c.writes.map Prod.fst) :=
  ⟨s.retire c, by rw [exec_eq_commit, h, commit_ok], fun _ hp => retire_readReg_mem s h hp, retire_endsDone s c⟩

/-- Settles O20: where the gcd divides the right-hand side the result is the triple, whose count is not 0, else the empty commit. -/
theorem linconCompletes : Obligations.LinconCompletes := by
  intro rd rx ry ra rb rm s hd hm
  have hpos : 1 ≤ s.readReg rm := Nat.pos_of_ne_zero hm
  by_cases hdvd : Nat.gcd (s.readReg ra) (s.readReg rm) ∣ s.readReg rb
  · obtain ⟨z, hl⟩ := exists_lincon hdvd
    obtain ⟨t, hexec, hwrites, hend⟩ := exec_endsDone (i := .lincon rd rx ry ra rb rm) (linconResult_eq_ok hd hm hl)
    obtain ⟨hrd, hrx, hry⟩ : t.readReg rd = z ∧ t.readReg rx = Nat.gcd (s.readReg ra) (s.readReg rm)
        ∧ t.readReg ry = s.readReg rm / Nat.gcd (s.readReg ra) (s.readReg rm) := by
      simpa [Commit.plain] using hwrites
    obtain ⟨_, _, _, _, hempty, _⟩ := id hend
    refine ⟨t, hexec, ?_, fun _ => ⟨hrx, hry, ?_, fun w hw => ?_⟩, fun h => absurd hdvd h, ?_⟩
    · rw [decide_eq_false (not_not.2 hdvd)]
      exact hend
    · obtain ⟨_, _, hz, _⟩ := (lincon_eq_some_iff hpos).1 hl
      rw [hrd, hry]
      exact hz
    · rw [hrd, hrx, hry]
      exact lincon_solutions hpos hl hw
    · rw [hrx, hempty]
      exact iff_of_false Bool.false_ne_true (Nat.gcd_pos_of_pos_right _ hpos).ne'
  · have hl := (lincon_eq_none_iff (s.readReg ra) (s.readReg rb) (s.readReg rm)).2 hdvd
    obtain ⟨t, hexec, hwrites, hend⟩ := exec_endsDone (i := .lincon rd rx ry ra rb rm) (linconResult_eq_empty hd hm hl)
    obtain ⟨hrd, hrx, hry⟩ : t.readReg rd = 0 ∧ t.readReg rx = 0 ∧ t.readReg ry = 0 := by
      simpa [emptyCommit] using hwrites
    obtain ⟨_, _, _, _, hempty, _⟩ := id hend
    refine ⟨t, hexec, ?_, fun h => absurd h hdvd, fun _ => ⟨hrd, hrx, hry⟩, iff_of_true hempty hrx⟩
    rw [decide_eq_true hdvd]
    exact hend

end Sys2Proof.Machine
end

section
/-! Proofs of the statements on 60_exceptions: the cause of each error (R132 to R136), what a completion commits (R131), acknowledge (R141),
and what a step from ERROR (R142) and a step of any state (R143) can do. -/

namespace Sys2Proof.Machine

/-! ### The cause of each error (60_exceptions R132 to R136) -/

/-- What makes the command `i` end in an error on the register file `x`, by R132 to R135; the conditions exclude each other as R136 orders
them. Only a term that is no command has E_ILLCMD for its result (30_encoding R78). -/
def ErrorCause (i : Instr) (x : RegId → Nat) : MauError → Prop
  | .illcmd => i.wellFormed = false
  | .modzero => i.wellFormed = true ∧ ∃ rm, modulusOf i = some rm ∧ x rm = 0
  | .range => ∃ rd ra rb rm, i = .modexp rd ra rb rm true ∧ x rm ≠ 0 ∧ x rm ≤ x ra
  | .noinv => ∃ rd ra rm, i = .modinv rd ra rm ∧ x rm ≠ 0 ∧ Nat.gcd (x ra) (x rm) ≠ 1

section
variable {rd rx ry : RegId} {a b m : Nat} {e : MauError}

@[simp] theorem modredResult_eq_error_iff : modredResult rd a m = .error e ↔ e = .modzero ∧ m = 0 := by
  by_cases hm : m = 0 <;> simp [modredResult, hm, eq_comm]

@[simp] theorem modmulResult_eq_error_iff : modmulResult rd a b m = .error e ↔ e = .modzero ∧ m = 0 := by
  by_cases hm : m = 0 <;> simp [modmulResult, hm, eq_comm]

@[simp] theorem modexpResult_eq_error_iff {chk : Bool} {n : Nat} :
    modexpResult rd chk b n m = .error e ↔ (e = .modzero ∧ m = 0) ∨ (e = .range ∧ chk = true ∧ m ≠ 0 ∧ m ≤ b) := by
  by_cases hm : m = 0
  · simp [modexpResult, hm, eq_comm]
  · cases chk with
    | false => simp [modexpResult, hm]
    | true => by_cases hb : m ≤ b <;> simp [modexpResult, hm, hb, eq_comm]

@[simp] theorem xgcdResult_eq_error_iff : xgcdResult rd rx ry a b = .error e ↔ e = .illcmd ∧ distinctDests rd rx ry = false := by
  cases hd : distinctDests rd rx ry <;> simp [xgcdResult, hd, eq_comm]

@[simp] theorem modinvResult_eq_error_iff :
    modinvResult rd a m = .error e ↔ (e = .modzero ∧ m = 0) ∨ (e = .noinv ∧ m ≠ 0 ∧ Nat.gcd a m ≠ 1) := by
  by_cases hm : m = 0
  · simp [modinvResult, hm, eq_comm]
  · by_cases hg : Nat.gcd a m = 1 <;> simp [modinvResult, modinv_eq, hm, hg, eq_comm]

@[simp] theorem linconResult_eq_error_iff :
    linconResult rd rx ry a b m = .error e
      ↔ (e = .illcmd ∧ distinctDests rd rx ry = false) ∨ (e = .modzero ∧ distinctDests rd rx ry = true ∧ m = 0) := by
  cases hd : distinctDests rd rx ry with
  | false => simp [linconResult, hd, eq_comm]
  | true =>
    by_cases hm : m = 0
    · simp [linconResult, hd, hm, eq_comm]
    · cases hl : lincon a b m <;> simp [linconResult, hd, hm, hl]

end

/-- A command ends in an error exactly by that error's cause. -/
theorem resultOf_eq_error_iff {i : Instr} {x : RegId → Nat} {e : MauError} :
    resultOf i x = .error e ↔ ErrorCause i x e := by
  cases e with
  | illcmd => cases i <;> simp [resultOf, ErrorCause, Instr.wellFormed]
  | modzero => cases i <;> simp [resultOf, ErrorCause, modulusOf, Instr.wellFormed]
  | range => cases i <;> simp [resultOf, ErrorCause]
  | noinv => cases i <;> simp [resultOf, ErrorCause]

theorem wellFormed_of_decode {c : Word} {i : Instr} (h : decode c = .ok i) : i.wellFormed = true :=
  (decode_eq_ok_iff.1 h).1

/-- An error other than E_ILLCMD is a decoded command's, by its cause (60_exceptions R136). -/
theorem outcomeOf_eq_error_iff {c : Word} {x : RegId → Nat} {e : MauError} (he : e ≠ .illcmd) :
    outcomeOf c x = .error e ↔ ∃ i, decode c = .ok i ∧ ErrorCause i x e := by
  cases hd : decode c with
  | error r => simp [outcomeOf_illegal hd, he.symm]
  | ok i => simp [outcomeOf_ok hd, resultOf_eq_error_iff]

/-! ### Completion (60_exceptions R131) -/

/-- The engine is enabled in BUSY with the reset input released, and moves unless the turn is a host's that has something to do. -/
theorem engineMoves_iff (s : State) :
    s.engineMoves = true ↔ s.phase = .busy ∧ s.rst = false ∧ (s.host = [] ∨ s.turns.head? ≠ some .host) := by
  simp [State.engineMoves, and_assoc]

theorem complete_of_error {s : State} {e : MauError} (h : outcomeOf s.cmd s.readReg = .error e) :
    ∃ t, s.complete = .next t ∧ EndsError s t e :=
  ⟨s.raise e, by rw [complete_eq_commit, h, commit_error], raise_endsError s e⟩

theorem complete_of_ok {s : State} {c : Commit} (h : outcomeOf s.cmd s.readReg = .ok c) :
    ∃ t, s.complete = .next t ∧ (∀ r v, (r, v) ∈ c.writes → t.readReg r = v)
      ∧ EndsDone s t c.sx c.sy c.empty (c.writes.map Prod.fst) := by
  obtain ⟨i, _, hi⟩ := outcomeOf_ok_inv h
  exact ⟨s.retire c, by rw [complete_eq_commit, h, commit_ok], fun _ _ => retire_readReg_mem s hi, retire_endsDone s c⟩

/-- Settles O21: completion is the commit of the outcome, `raise` or `retire`. -/
theorem completionCommitsOutcome : Obligations.CompletionCommitsOutcome :=
  fun s => ⟨engineMoves_iff s, fun _ => complete_of_error, fun _ => complete_of_ok⟩

/-- Settles O22: a command that the decoder answers is well-formed, so its result is never E_ILLCMD. -/
theorem illcmdIffIllegal : Obligations.IllcmdIffIllegal := by
  intro c x
  refine ⟨fun h => ?_, fun ⟨e, he⟩ => outcomeOf_illegal he x⟩
  cases hd : decode c with
  | error e => exact ⟨e, rfl⟩
  | ok i =>
    rw [outcomeOf_ok hd] at h
    have hill : i.wellFormed = false := resultOf_eq_error_iff.1 h
    exact absurd (wellFormed_of_decode hd) (by simp [hill])

/-- Settles O23: the cause of E_MODZERO, in a decoded command. -/
theorem modzeroIffModulusZero : Obligations.ModzeroIffModulusZero := by
  refine ⟨fun c x => ?_, fun _ => complete_of_error⟩
  rw [outcomeOf_eq_error_iff (by decide)]
  exact ⟨fun ⟨i, hd, _, rm, hrm, hx⟩ => ⟨i, rm, hd, hrm, hx⟩,
    fun ⟨i, rm, hd, hrm, hx⟩ => ⟨i, hd, wellFormed_of_decode hd, rm, hrm, hx⟩⟩

/-- Settles O24: the cause of E_RANGE, in a decoded command. -/
theorem rangeIffBaseTooLarge : Obligations.RangeIffBaseTooLarge := by
  refine ⟨fun c x => ?_, fun _ => complete_of_error⟩
  rw [outcomeOf_eq_error_iff (by decide)]
  constructor
  · rintro ⟨_, hd, rd, ra, rb, rm, rfl, hx⟩
    exact ⟨rd, ra, rb, rm, hd, hx⟩
  · rintro ⟨rd, ra, rb, rm, hd, hx⟩
    exact ⟨_, hd, rd, ra, rb, rm, rfl, hx⟩

/-- Settles O26: the cause of E_NOINV, in a decoded command. -/
theorem noinvIffNotCoprime : Obligations.NoinvIffNotCoprime := by
  refine ⟨fun c x => ?_, fun _ => complete_of_error⟩
  rw [outcomeOf_eq_error_iff (by decide)]
  constructor
  · rintro ⟨_, hd, rd, ra, rm, rfl, hx⟩
    exact ⟨rd, ra, rm, hd, hx⟩
  · rintro ⟨rd, ra, rm, hd, hx⟩
    exact ⟨_, hd, rd, ra, rm, rfl, hx⟩

/-- Settles O27: the causes of E_RANGE and E_NOINV ask for different commands, and both for a modulus that is not 0. -/
theorem errorPriority : Obligations.ErrorPriority := by
  refine ⟨fun c x e he => outcomeOf_illegal he x, fun rd ra rb rm chk x hx => ?_, fun rd ra rm x hx => ?_, ?_⟩
  · exact resultOf_eq_error_iff.2 ⟨rfl, rm, rfl, hx⟩
  · exact resultOf_eq_error_iff.2 ⟨rfl, rm, rfl, hx⟩
  · rintro i x ⟨hrange, y, hnoinv⟩
    obtain ⟨_, _, _, _, rfl, _⟩ := resultOf_eq_error_iff.1 hrange
    obtain ⟨_, _, _, hi, _⟩ := resultOf_eq_error_iff.1 hnoinv
    cases hi

/-! ### Acknowledge, and steps from ERROR (60_exceptions R141, R142) -/

/-- Settles O43: index 1 selects CTRL, whose write is then the acknowledge with the new IE, by phase. -/
theorem acknowledgeEffect : Obligations.AcknowledgeEffect := by
  intro s v h1 h2
  have hwrite : s.hostWrite 1 v = { s with ie := v.getLsbD 0 }.acknowledge := writeCtrl_acknowledge h2 h1
  rw [hwrite]
  exact ⟨fun hp => State.acknowledge_ends { s with ie := v.getLsbD 0 } hp,
    fun hp => State.acknowledge_keeps { s with ie := v.getLsbD 0 } hp⟩

/-- Settles O51: no completion and no acceptance happens in ERROR; acknowledge and reset end it, and the other events leave it. -/
theorem errorsDoNotNest : Obligations.ErrorsDoNotNest := by
  intro s t hp ht
  obtain ⟨u, host, turns, returned, hu, rfl⟩ := unitStep_of_step ht
  cases hu with
  | complete hm => exact absurd (hp.symm.trans (engineMoves_busy s hm).1) nofun
  | accept hidle _ => rcases hidle with h | h <;> exact absurd (hp.symm.trans h) nofun
  | @acknowledge v _ _ _ =>
    have ha := State.acknowledge_ends { s with ie := v.getLsbD 0 } (.inr hp)
    exact .inr ⟨congrArg State.phase ha, congrArg State.errcode ha⟩
  | reset _ _ => exact .inr ⟨rfl, rfl⟩
  | quiet | drop _ | limb _ _ _ | enable _ => exact .inl ⟨hp, rfl, rfl⟩

/-! ### What a step answers (60_exceptions R131, R143, 70 R160) -/

/-- Settles O47: the step of the engine commits the result of the decoded command, which is what `exec` does. -/
theorem stepRunsDecoded : Obligations.StepRunsDecoded := by
  intro s i hp hr hturn hd
  rw [step_engine s ((engineMoves_iff s).2 ⟨hp, hr, hturn⟩), outcomeOf_ok hd, s.takeTurn_busy hp, exec_eq_commit]
  rfl

/-- With nothing to do the host leaves the unit as it is (60_exceptions R146). -/
theorem step_hostDone {s : State} (hm : s.engineMoves = false) (hh : s.host = []) : step s = .next s.takeTurn := by
  simp [step, State.advance, hm, State.hostMoves, hh]

/-- With the reset input released every action of the host has its step. -/
theorem exists_step_of_released {s : State} {a : HostAct} {rest : List HostAct} (hm : s.engineMoves = false)
    (hr : s.rst = false) (hh : s.host = a :: rest) : ∃ t, step s = .next t := by
  cases a with
  | read k => exact ⟨_, step_read s hm hr hh⟩
  | write k v => exact ⟨_, step_write s hm hr hh⟩
  | wait => exact ⟨_, step_wait s hm hr hh⟩
  | clr => exact ⟨_, step_clr s hm hr hh⟩
  | writeBack k back =>
    exact ⟨s.takeTurn.performWrite (.writeBack k back) rest, by simp [step, State.advance, hm, State.hostMoves, hh, hr]⟩
  | rst level => exact ⟨_, step_rst s hm hh⟩

/-- While the reset input is asserted an access of the host has no step (70 R160). -/
theorem step_accessDuringReset {s : State} {a : HostAct} {rest : List HostAct} (hr : s.rst = true)
    (hh : s.host = a :: rest) (ha : ∀ level, a ≠ .rst level) : step s = .refused .accessDuringReset := by
  have hm : s.engineMoves = false := by simp [State.engineMoves, hr]
  cases a with
  | rst level => exact absurd rfl (ha level)
  | read | write | wait | clr | writeBack => simp [step, State.advance, hm, State.hostMoves, hh, hr]

/-- Settles O49: the engine always completes, and the host's action has its step unless it is an access during reset. -/
theorem stepNeverStops : Obligations.StepNeverStops := by
  intro s
  cases hm : s.engineMoves with
  | true => exact .inl ⟨_, step_engine s hm⟩
  | false =>
    cases hh : s.host with
    | nil => exact .inl ⟨_, step_hostDone hm hh⟩
    | cons a rest =>
      cases hr : s.rst with
      | false => exact .inl (exists_step_of_released hm hr hh)
      | true =>
        by_cases ha : ∃ level, a = .rst level
        · obtain ⟨level, rfl⟩ := ha
          exact .inl ⟨_, step_rst s hm hh⟩
        · have hacc : ∀ level, a ≠ .rst level := fun level h => ha ⟨level, h⟩
          exact .inr ⟨rfl, step_accessDuringReset hr hh hacc, a, rest, rfl, hacc⟩

end Sys2Proof.Machine
end

section
/-! Proofs of the statements on 70_reset_and_hazards: soft and hard reset (R160, R161), quiescence (R163), and the completion of every
accepted command (R180). -/

namespace Sys2Proof.Machine

/-! ### Completion under a host that does not reset (70 R180) -/

theorem noReset_of_cons {a : HostAct} {rest : List HostAct} (h : noReset (a :: rest) = true) : noReset rest = true := by
  cases a with
  | rst level => cases h
  | write k v | writeBack k back => exact (Bool.and_eq_true_iff.1 h).2
  | read k | wait | clr => exact h

/-- A write that the head of a queue without reset presents is no soft reset: `clr` writes SRST = 0. -/
theorem not_reset_of_writeOf {s : State} {a : HostAct} {rest : List HostAct} {k : Nat} {v : Word}
    (hn : noReset (a :: rest) = true) (hw : s.writeOf a = some (k, v)) : ¬(k = 1 ∧ v.getLsbD 2 = true) := by
  cases a with
  | read k | wait | rst level => cases hw
  | write k v =>
    cases hw
    have hwrite : (!(k == 1 && v.getLsbD 2)) = true := (Bool.and_eq_true_iff.1 hn).1
    rintro ⟨rfl, h2⟩
    rw [h2] at hwrite
    cases hwrite
  | clr =>
    cases hw
    exact fun h => absurd (s.clrWord_bits.1.symm.trans h.2) nofun
  | writeBack k back =>
    have hk : (k != 1) = true := (Bool.and_eq_true_iff.1 hn).1
    obtain ⟨w, _, hpair⟩ := Option.map_eq_some_iff.1 hw
    cases hpair
    rintro ⟨rfl, _⟩
    cases hk

/-- In BUSY a host write that is no soft reset changes WRDROP and IE only (20_memory R59, 10_state R38). -/
theorem hostWrite_busy {s : State} {k : Nat} {v : Word} (hp : s.phase = .busy) (hv : ¬(k = 1 ∧ v.getLsbD 2 = true)) :
    ∃ wrdrop ie, s.hostWrite k v = { s with wrdrop := wrdrop, ie := ie } := by
  rcases hostWrite_cases s k v with
    h | ⟨_, _, _, _, hnb, _⟩ | ⟨_, hidle, _⟩ | ⟨hk, h2, _⟩ | ⟨_, _, _, h⟩ | ⟨_, _, _, h⟩
  · exact ⟨true, s.ie, h⟩
  · exact absurd hp hnb
  · rcases hidle with h | h <;> exact absurd (hp.symm.trans h) nofun
  · exact absurd ⟨hk, h2⟩ hv
  · exact ⟨false, v.getLsbD 0, h.trans (State.acknowledge_keeps { s with ie := v.getLsbD 0 } (.inr hp))⟩
  · exact ⟨s.wrdrop, v.getLsbD 0, h⟩

/-- A `writeBack` of a word never read only goes on (log 13). -/
theorem step_writeBack_none {s : State} {k back : Nat} {rest : List HostAct} (hm : s.engineMoves = false)
    (hr : s.rst = false) (hh : s.host = .writeBack k back :: rest) (hw : s.writeOf (.writeBack k back) = none) :
    step s = .next (s.takeTurn.withHost rest) := by
  have hnone : s.takeTurn.performWrite (.writeBack k back) rest = s.takeTurn.withHost rest :=
    State.performWrite_none _ rest (by rw [State.takeTurn_writeOf, hw])
  simp [step, State.advance, hm, State.hostMoves, hh, hr, hnone]

/-- In BUSY a step of a host that does not reset uses up one turn and leaves the command and its registers: of the unit it changes
WRDROP and IE only. -/
theorem step_host_busy {s : State} {a : HostAct} {rest : List HostAct} (hm : s.engineMoves = false) (hp : s.phase = .busy)
    (hr : s.rst = false) (hh : s.host = a :: rest) (hn : noReset (a :: rest) = true) :
    ∃ wrdrop ie host returned, noReset host = true
      ∧ step s = .next ({ s with wrdrop := wrdrop, ie := ie }.withAgents host s.turns.tail returned) := by
  have hrest := noReset_of_cons hn
  have hturn := s.takeTurn_busy hp
  cases hw : s.writeOf a with
  | some p =>
    obtain ⟨k, v⟩ := p
    obtain ⟨wrdrop, ie, hwrite⟩ := hostWrite_busy (s := s.withAgents rest s.turns.tail s.returned) hp
      (not_reset_of_writeOf hn hw)
    refine ⟨wrdrop, ie, rest, s.returned, hrest, ?_⟩
    rw [step_presents s hm hr hh hw, hturn]
    exact congrArg _ hwrite
  | none =>
    cases a with
    | rst level => cases hn
    | write k v | clr => cases hw
    | read k =>
      refine ⟨s.wrdrop, s.ie, rest, s.returned ++ [s.hostRead k], hrest, ?_⟩
      rw [step_read s hm hr hh, hturn]
      rfl
    | wait => exact ⟨s.wrdrop, s.ie, .wait :: rest, _, hn, (step_wait_busy hm hr hp hh).2⟩
    | writeBack k back =>
      refine ⟨s.wrdrop, s.ie, rest, s.returned, hrest, ?_⟩
      rw [step_writeBack_none hm hr hh hw, hturn]
      rfl

/-- An accepted command completes within its turns: by induction on them, each turn of the host's keeps the command and its
registers. -/
theorem run_busy_completes {s : State} (hp : s.phase = .busy) (hr : s.rst = false) (hn : noReset s.host = true) :
    ∃ (k : Nat) (u : State), k ≤ s.turns.length + 1 ∧ (∀ r, u.readReg r = s.readReg r)
      ∧ Sys2Proof.core.run k s = .next (u.commit (outcomeOf s.cmd s.readReg)) := by
  induction ht : s.turns generalizing s with
  | nil =>
    have hm : s.engineMoves = true := (engineMoves_iff s).2 ⟨hp, hr, .inr (by simp [ht])⟩
    exact ⟨1, s.takeTurn, le_rfl, s.takeTurn_readReg, run_succ (step_engine s hm) 0⟩
  | cons agent turns ih =>
    cases hm : s.engineMoves with
    | true => exact ⟨1, s.takeTurn, by simp, s.takeTurn_readReg, run_succ (step_engine s hm) 0⟩
    | false =>
      cases hh : s.host with
      | nil => exact absurd ((engineMoves_iff s).2 ⟨hp, hr, .inl hh⟩) (by simp [hm])
      | cons a rest =>
        obtain ⟨wrdrop, ie, host, returned, hhost, hstep⟩ := step_host_busy hm hp hr hh (hh ▸ hn)
        rw [ht, List.tail_cons] at hstep
        obtain ⟨k, u, hk, hx, hrun⟩ :=
          ih (s := { s with wrdrop := wrdrop, ie := ie }.withAgents host turns returned) hp hr hhost rfl
        exact ⟨k + 1, u, Nat.succ_le_succ hk, hx, (run_succ hstep k).trans hrun⟩

/-- Settles O56: the run ends in the commit of the outcome, which is `raise` or `retire`. -/
theorem acceptedCommandCompletes : Obligations.AcceptedCommandCompletes := by
  intro s hp hr hn
  obtain ⟨k, u, hk, hx, hrun⟩ := run_busy_completes hp hr hn
  refine ⟨k, _, hk, hrun, fun e he => ?_, fun c hc => ?_⟩
  · rw [he]
    exact ⟨rfl, rfl, hx⟩
  · obtain ⟨i, _, hi⟩ := outcomeOf_ok_inv hc
    rw [hc]
    exact ⟨rfl, rfl, rfl, rfl, fun _ _ => retire_readReg_mem u hi,
      fun r hmem => (State.writeRegs_readReg_notMem c.writes u r hmem).trans (hx r)⟩

/-! ### Soft and hard reset (70 R160, R161) -/

/-- The reset action keeps nothing of the unit but its parameter and the level of `rst`. -/
theorem resetAction_congr {s s' : State} (hlimbs : s.limbs = s'.limbs) (hrst : s.rst = s'.rst) (hhost : s.host = s'.host)
    (hturns : s.turns = s'.turns) (hreturned : s.returned = s'.returned) : s.resetAction = s'.resetAction := by
  simp only [State.resetAction, hlimbs, hrst, hhost, hturns, hreturned]

/-- Settles O45: the CTRL write is the reset action, and the values read after it are those of `resetValues`. -/
theorem softResetEffect : Obligations.SoftResetEffect := by
  have hreset : ∀ (s : State) (v : Word), v.getLsbD 2 = true → s.hostWrite 1 v = s.resetAction :=
    fun _ _ hv => writeCtrl_reset hv
  refine ⟨fun s v hv => ?_, fun s s' v v' hv hv' hl hr hh ht hret => ?_⟩
  · have hat : s.resetAction.AtReset := resetAction_atReset s s.rst
    obtain ⟨hirq, hstatus, _, hcmd, _, hzero⟩ := resetValues.2.2 s.resetAction hat
    rw [hreset s v hv]
    exact ⟨hat, engineMoves_notBusy _ nofun, hirq, hstatus, hcmd, fun k hk => hzero k (by omega)⟩
  · rw [hreset s v hv, hreset s' v' hv']
    exact resetAction_congr hl hr hh ht hret

/-- Settles O46: driving `rst` is the reset action with the level driven; while it is asserted the engine is not enabled. -/
theorem hardResetEffect : Obligations.HardResetEffect := by
  refine ⟨fun s rest level hm hh hl => ?_, fun s hr => ?_, fun _ _ _ => step_accessDuringReset⟩
  · have hl' : level = true ∨ (s.takeTurn.withHost rest).rst = true := by simpa using hl
    refine ⟨_, step_rst s hm hh, ?_⟩
    rw [State.driveRst_resets _ hl']
    exact ⟨resetAction_atReset _ level, rfl, rfl⟩
  · simp [State.engineMoves, hr]

/-! ### Quiescence (70 R163) -/

/-- Settles O48: outside BUSY the engine is not enabled and no turn is used up. -/
theorem idleIsQuiescent : Obligations.IdleIsQuiescent := by
  intro s hp hh
  rw [step_hostDone (engineMoves_notBusy s hp) hh, s.takeTurn_notBusy hp]

end Sys2Proof.Machine
end
